-- ==== Sys2Proof/Word.lean ====
section
/-! DEFINITION. The value types of the engine (spec 00_scope.md R6, R8): 32-bit words, bytes, the 64-bit counter, and the
five HashState words. -/

namespace Sys2Proof

/-- `Word32` of R8: schedule words, working variables, HashState words and command words. Unsigned; addition wraps (R9). -/
abbrev Word := BitVec 32

/-- `Word8` of R8. -/
abbrev Byte := BitVec 8

/-- `Word64` of R8: the bit counter (R6, BITCNT_BITS). -/
abbrev Word64 := BitVec 64

/-- The five 32-bit words H[0..4] of R21 (STATE_WORDS = 5 of R6). The same shape holds the working variables a..e of R30. -/
structure HashState where
  h0 : Word
  h1 : Word
  h2 : Word
  h3 : Word
  h4 : Word
  deriving DecidableEq, Repr

end Sys2Proof
end

