-- ==== Sys2Proof/Syntax.lean ====
section
/-! DEFINITION. The commands of the engine, one constructor per row of opcode_table.json (30_encoding.md R74, R75). -/

namespace Sys2Proof

/-- A decoded command (R74). -/
inductive Instr where
  /-- RESET, format Z (R71, R180). -/
  | reset
  /-- INGEST with its payload, oldest byte first, format I (R72, R140). -/
  | ingest (bytes : List Byte)
  /-- FINALIZE, format Z (R71, R160). -/
  | finalize
  deriving DecidableEq, Repr

end Sys2Proof
end

