-- ==== Sys2Proof/WellFormed.lean ====
section
/-! DEFINITION. Which terms of Instr stand for a command word: an INGEST carries at most INGEST_MAX_BYTES = 3 bytes
(00_scope.md R7, 30_encoding.md R72). RESET and FINALIZE have no operand. -/

namespace Sys2Proof

/-- INGEST_MAX_BYTES of R7. -/
def ingestMaxBytes : Nat := 3

/-- The one check R72 puts on an operand: N is 0..3. -/
def Instr.wellFormed : Instr → Bool
  | .reset => true
  | .ingest bytes => decide (bytes.length ≤ ingestMaxBytes)
  | .finalize => true

end Sys2Proof
end

