-- ==== Sys2Proof/Decode.lean ====
section
/-! DEFINITION. Decoding and encoding of command words (30_encoding.md R70 to R77), and the opcode table's match and mask. -/

namespace Sys2Proof

/-- Why a word is illegal: one name for each bullet of R76. -/
inductive IllegalReason where
  /-- OP is 0x0 or 0x4 to 0xF. -/
  | reservedOpcode
  /-- OP is RESET or FINALIZE and any of bits 27:0 is set. -/
  | zeroFieldSet
  /-- OP is INGEST and RSV is not 0. -/
  | reservedBitsSet
  /-- OP is INGEST and a payload byte beyond N is not zero. -/
  | unusedByteSet
  deriving DecidableEq, Repr

/-- What decoding answers (R74): a command, or Illegal with its reason. -/
inductive Decoded where
  | legal (i : Instr)
  | illegal (r : IllegalReason)
  deriving DecidableEq, Repr

/-- OP = `word[31:28]` (R70). -/
def opField (w : Word) : BitVec 4 := w.extractLsb' 28 4

/-- ZERO = `word[27:0]` of format Z (R71). -/
def zeroField (w : Word) : BitVec 28 := w.extractLsb' 0 28

/-- RSV = `word[27:26]` of format I (R72). -/
def rsvField (w : Word) : BitVec 2 := w.extractLsb' 26 2

/-- N = `word[25:24]` of format I (R72, R73). -/
def countField (w : Word) : BitVec 2 := w.extractLsb' 24 2

/-- D0 = `word[23:16]`, the first message byte (R72). -/
def dataField0 (w : Word) : Byte := w.extractLsb' 16 8

/-- D1 = `word[15:8]`, the second message byte (R72). -/
def dataField1 (w : Word) : Byte := w.extractLsb' 8 8

/-- D2 = `word[7:0]`, the third message byte (R72). -/
def dataField2 (w : Word) : Byte := w.extractLsb' 0 8

/-- The operand assembly of R73: D0, D1, D2 in that order, truncated to the first N. -/
def payload (w : Word) : List Byte :=
  [dataField0 w, dataField1 w, dataField2 w].take (countField w).toNat

/-- The OP = 0x2 arm of R74, its checks in R74's order. -/
def decodeIngest (w : Word) : Decoded :=
  if rsvField w ≠ 0 then .illegal .reservedBitsSet
  else if (countField w).toNat < 3 ∧ dataField2 w ≠ 0 then .illegal .unusedByteSet
  else if (countField w).toNat < 2 ∧ dataField1 w ≠ 0 then .illegal .unusedByteSet
  else if (countField w).toNat < 1 ∧ dataField0 w ≠ 0 then .illegal .unusedByteSet
  else .legal (.ingest (payload w))

/-- A format Z word (R71): the command if bits 27:0 are zero. -/
def decodeFormatZ (i : Instr) (w : Word) : Decoded :=
  if zeroField w = 0 then .legal i else .illegal .zeroFieldSet

/-- `decode` of R74, total on every 32-bit word. It reads the word alone, never PHASE (R77). -/
def decode (w : Word) : Decoded :=
  match (opField w).toNat with
  | 1 => decodeFormatZ .reset w
  | 2 => decodeIngest w
  | 3 => decodeFormatZ .finalize w
  | _ => .illegal .reservedOpcode

/-- The format I word of R74: `0x20000000 | n << 24 | D0 << 16 | D1 << 8 | D2`, written by the fields of R72. -/
def formatI (n : BitVec 2) (d0 d1 d2 : Byte) : Word := 0x2#4 ++ 0#2 ++ n ++ d0 ++ d1 ++ d2

/-- Payload byte j of a command, zero where it carries none (R72: an unused byte must be 0). -/
def payloadByte (bytes : List Byte) (j : Nat) : Byte := bytes.getD j 0

/-- The one word of a legal command (R74). It stands for a command only where `Instr.wellFormed` holds (log entry 12). -/
def encode : Instr → Word
  | .reset => 0x10000000
  | .ingest bytes =>
    formatI (BitVec.ofNat 2 bytes.length) (payloadByte bytes 0) (payloadByte bytes 1) (payloadByte bytes 2)
  | .finalize => 0x30000000

/-- The "match" of a command's row of opcode_table.json. -/
def Instr.tableMatch : Instr → Word
  | .reset => 0x10000000
  | .ingest _ => 0x20000000
  | .finalize => 0x30000000

/-- The "mask" of a command's row of opcode_table.json. -/
def Instr.tableMask : Instr → Word
  | .reset => 0xFFFFFFFF
  | .ingest _ => 0xFC000000
  | .finalize => 0xFFFFFFFF

/-- A legal word's command, none for an illegal word. -/
def Decoded.instr : Decoded → Option Instr
  | .legal i => some i
  | .illegal _ => none

/-- The host's question (opcode_table.json): the command the decoder reads from an instruction whose bits are w. Every
command is one 32-bit word (R70), so bits above nbits are 0 and an instruction longer than 32 bits is none. -/
def decodeTableWord (nbits w : Nat) : Option Instr :=
  if nbits ≤ 32 then (decode (BitVec.ofNat 32 (w % 2 ^ nbits))).instr else none

end Sys2Proof
end

