-- ==== Sys2Proof/Machine/Bits.lean ====
section
/-! DEFINITION. The notation of 00_scope.md section 5: rotation of a word (R9) and a slice of a byte sequence (R10). -/

namespace Sys2Proof.Machine

/-- `rotl(x, n)` of R9, for 0 < n < 32. -/
def rotl (x : Word) (n : Nat) : Word := (x <<< n) ||| (x >>> (32 - n))

/-- `s[i..j)` of R10: bytes i to j-1. -/
def slice (s : List Byte) (i j : Nat) : List Byte := (s.drop i).take (j - i)

end Sys2Proof.Machine
end

