-- ==== Sys2Proof/Machine/Codec.lean ====
section
/-! DEFINITION. The byte-order codec (40_byte_codec.md R100 to R104). Big-endian everywhere (20_memory.md R53). -/

namespace Sys2Proof.Machine

/-- `be32` of R100. -/
def be32 (x : Word) : List Byte :=
  [x.extractLsb' 24 8, x.extractLsb' 16 8, x.extractLsb' 8 8, x.extractLsb' 0 8]

/-- `unbe32` of R101, on its four bytes. -/
def unbe32 (s0 s1 s2 s3 : Byte) : Word := s0 ++ s1 ++ s2 ++ s3

/-- `be64` of R102. -/
def be64 (n : Word64) : List Byte := be32 (n.extractLsb' 32 32) ++ be32 (n.extractLsb' 0 32)

/-- `words16` of R103: each group of four bytes is a word. On a 64-byte block it gives 16 words; every caller passes 64 bytes
(log entry 12). -/
def words16 : List Byte → List Word
  | s0 :: s1 :: s2 :: s3 :: rest => unbe32 s0 s1 s2 s3 :: words16 rest
  | _ => []

/-- The bytes of `digest_bytes` (R104), in order. -/
def digestList (h : HashState) : List Byte :=
  be32 h.h0 ++ be32 h.h1 ++ be32 h.h2 ++ be32 h.h3 ++ be32 h.h4

/-- `digest_bytes` of R104, as the 20 bytes it is. -/
def digestBytes (h : HashState) : Vector Byte 20 := ⟨(digestList h).toArray, rfl⟩

/-- `unbe32(MEMO bytes 4k..4k+3)` of R34 and R185: the value of DIGESTk while Finalized. -/
def memoWord (memo : Vector Byte 20) (k : Fin 5) : Word :=
  unbe32 memo[4 * k.val] memo[4 * k.val + 1] memo[4 * k.val + 2] memo[4 * k.val + 3]

end Sys2Proof.Machine
end

