-- ==== Sys2Proof/Machine/Schedule.lean ====
section
/-! DEFINITION. The message-schedule expander (41_schedule_expander.md R110), and the 16-word shift window an implementation may
use instead (R112). -/

namespace Sys2Proof.Machine

/-- `W[t]` of a schedule built so far. Within R110 the index is always in range; out of range it reads 0 (log entry 12). -/
def scheduleWord (w : List Word) (t : Nat) : Word := w.getD t 0

/-- `W[t]` for t = the number of words so far, from W[t-3], W[t-8], W[t-14] and W[t-16] (R110). -/
def nextScheduleWord (w : List Word) : Word :=
  rotl (scheduleWord w (w.length - 3) ^^^ scheduleWord w (w.length - 8) ^^^ scheduleWord w (w.length - 14)
    ^^^ scheduleWord w (w.length - 16)) 1

/-- n more words of the schedule (the second loop of R110). -/
def expandSchedule : Nat → List Word → List Word
  | 0, w => w
  | n + 1, w => expandSchedule n (w ++ [nextScheduleWord w])

/-- `schedule` of R110: 16 words of the block, then t = 16..79. -/
def schedule (block : List Byte) : List Word := expandSchedule 64 (words16 block)

/-- The word the shift window of R112 takes in: with the window holding W[t] … W[t+15], that is W[t+16]. -/
def windowNext (win : List Word) : Word :=
  rotl (scheduleWord win 13 ^^^ scheduleWord win 8 ^^^ scheduleWord win 2 ^^^ scheduleWord win 0) 1

/-- One shift of the window of R112: the oldest word leaves, the next one enters. -/
def windowShift (win : List Word) : List Word := win.drop 1 ++ [windowNext win]

end Sys2Proof.Machine
end

