-- ==== Sys2Proof/Machine/Compression.lean ====
section
/-! DEFINITION. The compression round function (42_compression.md R120 to R122), and its on-the-fly realisation with a 16-word
schedule window (41_schedule_expander.md R112, 42_compression.md R124). -/

namespace Sys2Proof.Machine

/-- The f column of R120. -/
def roundF (t : Nat) (b c d : Word) : Word :=
  if t < 20 then (b &&& c) ||| (~~~b &&& d)
  else if t < 40 then b ^^^ c ^^^ d
  else if t < 60 then (b &&& c) ||| (b &&& d) ||| (c &&& d)
  else b ^^^ c ^^^ d

/-- The k column of R120. -/
def roundK (t : Nat) : Word :=
  if t < 20 then 0x5A827999
  else if t < 40 then 0x6ED9EBA1
  else if t < 60 then 0x8F1BBCDC
  else 0xCA62C1D6

/-- `temp` of R121: the five-term sum, wrapping mod 2^32. -/
def roundTemp (t : Nat) (v : HashState) (w : Word) : Word :=
  rotl v.h0 5 + roundF t v.h1 v.h2 v.h3 + v.h4 + roundK t + w

/-- One round of R121 on (a, b, c, d, e) = (h0, h1, h2, h3, h4). -/
def shaRound (t : Nat) (v : HashState) (w : Word) : HashState where
  h0 := roundTemp t v w
  h1 := v.h0
  h2 := rotl v.h1 30
  h3 := v.h2
  h4 := v.h3

/-- Rounds t, t+1, … over the schedule words given, in order (the loop of R122). -/
def rounds : Nat → List Word → HashState → HashState
  | _, [], v => v
  | t, w :: ws, v => rounds (t + 1) ws (shaRound t v w)

/-- The final additions of R122, each mod 2^32. -/
def addWords (h v : HashState) : HashState where
  h0 := h.h0 + v.h0
  h1 := h.h1 + v.h1
  h2 := h.h2 + v.h2
  h3 := h.h3 + v.h3
  h4 := h.h4 + v.h4

/-- `compress(block)` of R122, a function of H and the block alone: the new H. -/
def compress (h : HashState) (block : List Byte) : HashState := addWords h (rounds 0 (schedule block) h)

/-- Compress every whole 64-byte group of a byte sequence, in order: the loop of R160 over j, and the chain of R123. -/
def compressAll (h : HashState) (s : List Byte) : HashState :=
  (List.range (s.length / 64)).foldl (fun g j => compress g (slice s (64 * j) (64 * j + 64))) h

/-- n rounds from round t with the schedule produced on the fly from a window that holds W[t] … W[t+15] (R112, R124). -/
def windowRounds : Nat → Nat → List Word → HashState → HashState
  | 0, _, _, v => v
  | n + 1, t, win, v => windowRounds n (t + 1) (windowShift win) (shaRound t v (scheduleWord win 0))

/-- The realisation R112 and R124 allow: 80 rounds over a 16-word window, no stored schedule. -/
def compressOnTheFly (h : HashState) (block : List Byte) : HashState :=
  addWords h (windowRounds 80 0 (words16 block) h)

end Sys2Proof.Machine
end

