-- ==== Sys2Proof/Config.lean ====
section
/-! DEFINITION. What the spec leaves OPEN as a parameter of the platform (00_scope.md R7, 92_eei_decisions.md D4, D17, D20,
D33). Each is a constant with no body: no proof can see its value. -/

namespace Sys2Proof

/-- BASE (R7, R51, D4): the base address of the register window of instance k in the host's address space. Log entry 5. -/
opaque Config.base : Nat → Nat

/-- NUM_INSTANCES - 1 (R7, R233, D20): how many instances the platform holds beside the first. Log entry 4. -/
opaque Config.extraInstances : Nat

/-- NUM_INSTANCES of R7, at least 1 by its form. -/
def Config.numInstances : Nat := Config.extraInstances + 1

/-- LAT_RESET of R7 and R262: the completion latency of RESET. "No rule depends on them": nothing reads it. Log entry 9. -/
opaque Config.latReset : Nat

/-- LAT_INGEST of R7 and R262. Nothing reads it. Log entry 9. -/
opaque Config.latIngest : Nat

/-- LAT_FINALIZE of R7 and R262. Nothing reads it. Log entry 9. -/
opaque Config.latFinalize : Nat

/-- TEXT_ENCODING (R201, D33): the host's conversion of a text to message bytes. Log entry 9. -/
opaque Config.textEncoding : String → List Byte

end Sys2Proof
end

