-- ==== Sys2Proof/Machine/Constants.lean ====
section
/-! DEFINITION. The fixed constants of the engine: the initial HashState (10_state.md R24). -/

namespace Sys2Proof.Machine

/-- IV[0..4] of R24. The spec takes the five words from general knowledge and checks them against the source's digest of the
empty message (93_implementation_defined.md G1). Log entry 6. -/
def iv : HashState where
  h0 := 0x67452301
  h1 := 0xEFCDAB89
  h2 := 0x98BADCFE
  h3 := 0x10325476
  h4 := 0xC3D2E1F0

end Sys2Proof.Machine
end

