-- ==== Sys2Proof/Machine/State.lean ====
section
/-! DEFINITION. The state of the machine as plain data (10_state.md): one instance's architectural state (R21), the model's
logs beside it (60_exceptions.md R228, 70_reset_and_hazards.md R263), the platform's instances (R233) and the host's accesses
not yet performed (20_memory.md R55). -/

namespace Sys2Proof.Machine

/-- PHASE of R21 and R26. -/
inductive Phase where
  | fresh
  | accumulating
  | finalized
  deriving DecidableEq, Repr

/-- The error events of 60_exceptions.md section 1, each with the offending command word, as R228 records them. -/
inductive Event where
  /-- IllegalCommand (R220): the word decodes to Illegal. -/
  | illegalCommand (word : Word)
  /-- SequenceError (R221): a legal INGEST word while PHASE = Finalized. -/
  | sequenceError (word : Word)
  deriving DecidableEq, Repr

/-- Width of a host access (20_memory.md R57). The port carries 32 bits (R52), so none is wider. -/
inductive Width where
  | byte
  | half
  | word
  deriving DecidableEq, Repr

/-- What a host access names: byte offset `off` from the base of instance `k`'s window (RegRead and RegWrite of 00_scope.md
R11), or an address in the host's address space (R51). -/
inductive Target where
  | window (k off : Nat)
  | address (a : Nat)
  deriving DecidableEq, Repr

/-- One thing the host does at the port of R52: a register write, a register read, or asserting the reset input of instance
`k` (70_reset_and_hazards.md R250). -/
inductive Access where
  | write (t : Target) (width : Width) (value : Word)
  | read (t : Target) (width : Width)
  | hardReset (k : Nat)
  deriving DecidableEq, Repr

/-- The persistent state of one instance: exactly the list of R21. -/
structure Engine where
  /-- HashState H[0..4]. -/
  h : HashState
  /-- InputBuffer BUF, oldest byte first; its length is BUF_LEN (R23). -/
  buf : List Byte
  /-- BitCounter BITCNT. -/
  bitcnt : Word64
  phase : Phase
  /-- The memoized Digest MEMO, byte 0 first. -/
  memo : Vector Byte 20
  /-- Sticky ILL. -/
  ill : Bool
  /-- Sticky SEQ. -/
  seq : Bool
  deriving DecidableEq, Repr

/-- An instance with what the model records of its run (R263): the values its READs returned, in order, and the fault log of
R228, oldest event first. -/
structure Instance where
  eng : Engine
  reads : List Word
  faultLog : List Event
  deriving DecidableEq, Repr

/-- The machine. `inst` is instance 0 between steps; while an access to another instance is performed, that instance stands in
`inst` (`onInstance` of Machine/Ops.lean). `others` holds instances 1, 2, … (R233). `pending` holds the host's accesses not yet
performed, the next one first (R55; log entry 1). -/
structure State where
  inst : Instance
  others : List Instance
  pending : List Access
  deriving DecidableEq, Repr

/-- A reason a run stops with a fault. NO STEP OF THE MACHINE ENDS SO: IllegalCommand and SequenceError set a sticky bit, are
logged, and the machine goes on (R226 to R228; log entry 2). -/
inductive Fault where
  /-- Raised by the STATUS reader of Machine/HostFunctions.lean alone: the value has PHASE code 0b11, which the engine never
  produces (93_implementation_defined.md U11). Safe: the model stops. -/
  | reservedPhaseCode (status : Word)
  deriving DecidableEq, Repr

/-- A reason the model gives an access no meaning. -/
inductive Refusal where
  /-- Of an instruction with no meaning yet. Safe. No arm of exec answers it. -/
  | notModelled (mnemonic : String)
  /-- Raised by the host port: the byte offset is not a multiple of 4 (45_control.md R188). Safe. -/
  | misaligned (off : Nat)
  /-- Raised by the host port: the access is narrower than 32 bits (R188). Safe. -/
  | subWord (width : Width)
  /-- Raised by the host port: the access falls outside the 64-byte window (R188). Safe. -/
  | outsideWindow (t : Target)
  /-- Raised by the host port: the platform has no instance k, so no window and no reset input of it (R233). Safe. -/
  | noSuchInstance (k : Nat)
  deriving DecidableEq, Repr

/-- The reset values of R36, the same after hardware reset (R250). -/
def Engine.powerOn : Engine where
  h := iv
  buf := []
  bitcnt := 0
  phase := .fresh
  memo := Vector.replicate 20 0
  ill := false
  seq := false

/-- An instance right after hardware reset at the start of a run, with nothing read and nothing logged (R263; log entry 10). -/
def Instance.powerOn : Instance where
  eng := .powerOn
  reads := []
  faultLog := []

/-- The machine right after reset: every instance of the platform comes out of hardware reset in Fresh (R233, R250), and the
host has issued no access yet (log entries 4, 10, 11). -/
def State.reset : State where
  inst := .powerOn
  others := List.replicate Config.extraInstances .powerOn
  pending := []

end Sys2Proof.Machine
end

