-- ==== Sys2Proof/Machine/Flags.lean ====
section
/-! DEFINITION. The status bits (10_state.md R33, R35): the PHASE code, the STATUS word, and the sticky bits ILL and SEQ. The
engine has no arithmetic flags (R33). -/

namespace Sys2Proof.Machine

/-- PHASEcode of R35 and R185. -/
def Phase.code : Phase → BitVec 2
  | .fresh => 0b00
  | .accumulating => 0b01
  | .finalized => 0b10

/-- STATUS as R185 composes it: `{14'b0, SEQ, ILL, 2'b0, len(BUF)[5:0], 6'b0, PHASEcode}` (fields of R35). -/
def statusWord (e : Engine) : Word :=
  0#14 ++ BitVec.ofBool e.seq ++ BitVec.ofBool e.ill ++ 0#2 ++ BitVec.ofNat 6 e.buf.length ++ 0#6 ++ e.phase.code

/-- The event codes of R220 and R221. -/
def Event.code : Event → Nat
  | .illegalCommand _ => 1
  | .sequenceError _ => 2

/-- The STATUS bit of the event: ILL is bit 16 (R220), SEQ is bit 17 (R221, R35). -/
def Event.statusBit : Event → Nat
  | .illegalCommand _ => 16
  | .sequenceError _ => 17

/-- The offending word an event is recorded with (R228). -/
def Event.word : Event → Word
  | .illegalCommand w => w
  | .sequenceError w => w

/-- The effect of an event on the instance: its sticky bit becomes 1, "and nothing else changes" (R220, R221). -/
def Engine.setSticky (ev : Event) (e : Engine) : Engine :=
  match ev with
  | .illegalCommand _ => { e with ill := true }
  | .sequenceError _ => { e with seq := true }

end Sys2Proof.Machine
end

