-- ==== Sys2Proof/Machine/Ops.lean ====
section
/-! DEFINITION. The shared operations: raising an event (60_exceptions.md R220, R221, R226, R228), logging a read (R263), and
running an operation on one instance of the platform (R236). -/

namespace Sys2Proof.Machine

/-- TAKING AN EXCEPTION. R226: an event transfers no control and saves no state; it sets its sticky bit, the model records it
with its word (R228), and the machine goes on (R227). There is no return from it: the sticky bits stay 1 until RESET or
hardware reset (R227). -/
def raise (ev : Event) (s : State) : State :=
  { s with inst := { s.inst with eng := s.inst.eng.setSticky ev, faultLog := s.inst.faultLog ++ [ev] } }

/-- Put a new architectural state in the instance performed on; its logs stay. -/
def State.setEngine (e : Engine) (s : State) : State := { s with inst := { s.inst with eng := e } }

/-- The host takes a value a READ returned into its observation log (R78, R263). -/
def State.logRead (v : Word) (s : State) : State := { s with inst := { s.inst with reads := s.inst.reads ++ [v] } }

/-- Instance k of the platform. -/
def State.instAt (s : State) (k : Nat) : Option Instance :=
  match k with
  | 0 => some s.inst
  | j + 1 => s.others[j]?

/-- The platform with instance k replaced. -/
def State.setInst (k : Nat) (i : Instance) (s : State) : State :=
  match k with
  | 0 => { s with inst := i }
  | j + 1 => { s with others := s.others.set j i }

/-- Perform f on instance k: f sees that instance in `inst`, and what it leaves there goes back to place k. "A command to one
instance changes no state of another" (R236). -/
def onInstance (k : Nat) (f : State → Host.Outcome State Fault Refusal) (s : State) :
    Host.Outcome State Fault Refusal :=
  match s.instAt k with
  | none => .refused (.noSuchInstance k)
  | some i =>
    match f { s with inst := i } with
    | .next t => .next (State.setInst k t.inst { t with inst := s.inst })
    | .fault r => .fault r
    | .refused r => .refused r

end Sys2Proof.Machine
end

