-- ==== Sys2Proof/Machine/Accumulator.lean ====
section
/-! DEFINITION. The streaming accumulator: INGEST (43_accumulator.md R140 to R143). -/

namespace Sys2Proof.Machine

/-- `push` of R141: append one byte; a buffer that reaches 64 is compressed at once and cleared. -/
def Engine.push (e : Engine) (x : Byte) : Engine :=
  if (e.buf ++ [x]).length = 64 then { e with h := compress e.h (e.buf ++ [x]), buf := [] }
  else { e with buf := e.buf ++ [x] }

/-- `push` of each byte in order: the loop of R140. -/
def Engine.pushAll (e : Engine) (bytes : List Byte) : Engine := bytes.foldl Engine.push e

/-- INGEST while not Finalized (R140): push each byte, count 8 bits a byte mod 2^64 (R142), PHASE <- Accumulating. -/
def Engine.ingest (bytes : List Byte) (e : Engine) : Engine :=
  { e.pushAll bytes with bitcnt := e.bitcnt + BitVec.ofNat 64 (8 * bytes.length), phase := .accumulating }

/-- INGEST (R140). While Finalized it raises SequenceError with the command's word and nothing else runs (R143; the word is the
command's only one, R74, log entry 7). -/
def execIngest (bytes : List Byte) (s : State) : Host.Outcome State Fault Refusal :=
  if s.inst.eng.phase = .finalized then .next (raise (.sequenceError (encode (.ingest bytes))) s)
  else .next (s.setEngine (s.inst.eng.ingest bytes))

end Sys2Proof.Machine
end

