-- ==== Sys2Proof/Machine/Control.lean ====
section
/-! DEFINITION. RESET (45_control.md R180) and hardware reset (70_reset_and_hazards.md R250). -/

namespace Sys2Proof.Machine

/-- The assignments of R180, every persistent state of R21 in one atomic step. -/
def Engine.reset (e : Engine) : Engine :=
  { e with
    h := iv
    buf := []
    bitcnt := 0
    memo := Vector.replicate 20 0
    phase := .fresh
    ill := false
    seq := false }

/-- RESET (R180), legal in every PHASE. The fault log is not cleared (R228). -/
def execReset (s : State) : Host.Outcome State Fault Refusal := .next (s.setEngine s.inst.eng.reset)

/-- Hardware reset of an instance: it takes the reset values of R36 (R250). The fault log is not cleared (R228, D13). -/
def hardReset (s : State) : Host.Outcome State Fault Refusal := .next (s.setEngine .powerOn)

end Sys2Proof.Machine
end

