-- ==== Sys2Proof/Machine/Finalizer.lean ====
section
/-! DEFINITION. The finalizer: padding and FINALIZE (44_finalizer.md R160 to R164). -/

namespace Sys2Proof.Machine

/-- `z = (55 - L) mod 64` of R161, the number of zero bytes, written without a negative number: 119 = 55 + 64. -/
def padZeros (len : Nat) : Nat := (119 - len % 64) % 64

/-- `pad` of R161. -/
def pad (buf : List Byte) (n : Word64) : List Byte :=
  buf ++ [0x80] ++ List.replicate (padZeros buf.length) 0x00 ++ be64 n

/-- FINALIZE while not Finalized (R160): compress the padded buffer's blocks in order, empty the buffer, memoize the digest
(R163). BITCNT is read and not written. -/
def Engine.finalizeNow (e : Engine) : Engine :=
  { e with
    h := compressAll e.h (pad e.buf e.bitcnt)
    buf := []
    memo := digestBytes (compressAll e.h (pad e.buf e.bitcnt))
    phase := .finalized }

/-- FINALIZE on an instance (R160): while Finalized it changes nothing (R164). -/
def Engine.finalize (e : Engine) : Engine := if e.phase = .finalized then e else e.finalizeNow

/-- FINALIZE (R160). -/
def execFinalize (s : State) : Host.Outcome State Fault Refusal := .next (s.setEngine s.inst.eng.finalize)

end Sys2Proof.Machine
end

