-- ==== Sys2Proof/Machine/Dispatch.lean ====
section
/-! DEFINITION. The dispatch of a decoded command (45_control.md R181): one arm per row of opcode_table.json. -/

namespace Sys2Proof.Machine

def exec (i : Instr) (s : State) : Host.Outcome State Fault Refusal :=
  match i with
  | .reset => Sys2Proof.Machine.execReset s
  | .ingest bytes => Sys2Proof.Machine.execIngest bytes s
  | .finalize => Sys2Proof.Machine.execFinalize s

end Sys2Proof.Machine
end

