-- ==== Sys2Proof/Machine/Operands.lean ====
section
/-! DEFINITION. What a host access names: the instance and byte offset it reaches (20_memory.md R51), and the accesses the
model refuses (20_memory.md R57, 45_control.md R188). -/

namespace Sys2Proof.Machine

/-- WINDOW_BYTES of R7: offsets 0x00..0x3F. -/
def windowBytes : Nat := 64

/-- Whether address a lies in the window at base b: `BASE` to `BASE + 0x3F` (R51). -/
def inWindow (b a : Nat) : Bool := decide (b ≤ a) && decide (a < b + windowBytes)

/-- The instance, of n with the given bases, whose window holds address a, and the byte offset in it (R51, R233). Windows are
each instance's own; should two overlap, the lowest index wins (log entry 5). -/
def locate (bases : Nat → Nat) (n a : Nat) : Option (Nat × Nat) :=
  ((List.range n).find? fun k => inWindow (bases k) a).map fun k => (k, a - bases k)

/-- NUM_INSTANCES of this machine (R233). -/
def State.numInstances (s : State) : Nat := s.others.length + 1

/-- The instance and byte offset a target names, none where it falls outside the window (R188). -/
def resolve (t : Target) (s : State) : Option (Nat × Nat) :=
  match t with
  | .window k off => if off < windowBytes then some (k, off) else none
  | .address a => locate Config.base s.numInstances a

/-- Why an access inside a window is refused, if it is: misaligned, or narrower than 32 bits (R57, R188). -/
def accessProblem (off : Nat) (width : Width) : Option Refusal :=
  if off % 4 ≠ 0 then some (.misaligned off)
  else match width with
    | .byte => some (.subWord .byte)
    | .half => some (.subWord .half)
    | .word => none

end Sys2Proof.Machine
end

