-- ==== Sys2Proof/Machine/HostPort.lean ====
section
/-! DEFINITION. The host port of one instance (20_memory.md R52): register reads and writes (45_control.md R181, R185, R187),
refused accesses (R188), and the host's next access. -/

namespace Sys2Proof.Machine

/-- The dispatch of R181. Decoding comes before any PHASE test (R225); an illegal word raises IllegalCommand (R189). -/
def dispatchWord (v : Word) (s : State) : Host.Outcome State Fault Refusal :=
  match decode v with
  | .legal i => exec i s
  | .illegal _ => .next (raise (.illegalCommand v) s)

/-- `RegWrite(off, v)` at an aligned offset of the window: CMD runs the command (R181), every other offset ignores the write
(R187). -/
def regWrite (off : Nat) (v : Word) (s : State) : Host.Outcome State Fault Refusal :=
  if off = 0x00 then dispatchWord v s else .next s

/-- DIGESTk of R34: MEMO's word k while Finalized, else 0. -/
def digestReg (k : Fin 5) (e : Engine) : Word := if e.phase = .finalized then memoWord e.memo k else 0

/-- `RegRead(off)` at an aligned offset of the window (R185). CMD and the reserved offsets read 0. -/
def regRead (off : Nat) (e : Engine) : Word :=
  match off with
  | 0x04 => statusWord e
  | 0x08 => e.bitcnt.extractLsb' 32 32
  | 0x0C => e.bitcnt.extractLsb' 0 32
  | 0x10 => digestReg 0 e
  | 0x14 => digestReg 1 e
  | 0x18 => digestReg 2 e
  | 0x1C => digestReg 3 e
  | 0x20 => digestReg 4 e
  | _ => 0

/-- A read: no engine state changes (R58, R190); the host logs the value (R263). -/
def readReg (off : Nat) (s : State) : Host.Outcome State Fault Refusal := .next (s.logRead (regRead off s.inst.eng))

/-- An access to a target, at its instance and offset, unless R188 refuses it. -/
def atTarget (t : Target) (width : Width) (f : Nat → State → Host.Outcome State Fault Refusal) (s : State) :
    Host.Outcome State Fault Refusal :=
  match resolve t s with
  | none => .refused (.outsideWindow t)
  | some (k, off) =>
    match accessProblem off width with
    | some r => .refused r
    | none => onInstance k (f off) s

/-- One access of the host, whole (R12, R56, R57). -/
def perform (a : Access) (s : State) : Host.Outcome State Fault Refusal :=
  match a with
  | .write t width v => atTarget t width (fun off => regWrite off v) s
  | .read t width => atTarget t width readReg s
  | .hardReset k => onInstance k hardReset s

/-- The host's next access is performed (R55). With none pending the engine is idle and holds its state: it "never steps on its
own" (R20, R235; log entry 1). -/
def performNext (s : State) : Host.Outcome State Fault Refusal :=
  match s.pending with
  | [] => .next s
  | a :: rest => perform a { s with pending := rest }

/-- The write of a 32-bit word to CMD of instance k. -/
def cmdWrite (k : Nat) (v : Word) : Access := .write (.window k 0x00) .word v

/-- The command word the opcode table's bits w stand for (bits above nbits are 0), written to CMD of instance 0 as the host's
very next access (log entry 11). -/
def placeWord (s : State) (nbits w : Nat) : State :=
  { s with pending := cmdWrite 0 (BitVec.ofNat 32 (w % 2 ^ nbits)) :: s.pending }

end Sys2Proof.Machine
end

