-- ==== Sys2Proof/Machine/Assembler.lean ====
section
/-! DEFINITION. Host programs: the assembler lines of 30_encoding.md R78, the pseudo-instructions of R79, and the accesses they
stand for. -/

namespace Sys2Proof.Machine

/-- A register of the window by its name in R34, or an offset written out (as `READ 0x24`). -/
inductive RegName where
  | cmd
  | status
  | bitcntHi
  | bitcntLo
  | digest (k : Fin 5)
  | offset (off : Nat)
  deriving DecidableEq, Repr

/-- The byte offset of a register (R34). -/
def RegName.off : RegName → Nat
  | .cmd => 0x00
  | .status => 0x04
  | .bitcntHi => 0x08
  | .bitcntLo => 0x0C
  | .digest k => 0x10 + 4 * k.val
  | .offset off => off

/-- One line of a host program (R78, R79). -/
inductive AsmLine where
  | reset
  | ingest (bytes : List Byte)
  | finalize
  | write (off : Nat) (imm : Word)
  | read (r : RegName)
  | ingestBytes (bytes : List Byte)
  | ingestStr (text : String)
  | hashStr (text : String)
  deriving DecidableEq, Repr

/-- The payloads of the words of `INGEST.BYTES`: three bytes a word, the last word carrying the rest (R79). -/
def ingestChunks : List Byte → List (List Byte)
  | b0 :: b1 :: b2 :: rest => [b0, b1, b2] :: ingestChunks rest
  | [] => []
  | rest => [rest]

/-- The payloads of `INGEST.BYTES` for any bytes: for none it is one empty INGEST (R79). -/
def ingestPayloads (bytes : List Byte) : List (List Byte) := if bytes = [] then [[]] else ingestChunks bytes

/-- The command words of `INGEST.BYTES` (R79). -/
def ingestWords (bytes : List Byte) : List Word := (ingestPayloads bytes).map fun p => encode (.ingest p)

/-- READ of a register of instance k. -/
def readOf (k : Nat) (r : RegName) : Access := .read (.window k r.off) .word

/-- `READ DIGEST0` to `READ DIGEST4`. -/
def readDigest (k : Nat) : List Access := (List.finRange 5).map fun j => readOf k (.digest j)

/-- RESET, INGEST.BYTES, FINALIZE and the five digest reads: `HASH.STR` of R79 on the text's bytes. -/
def hashProgram (k : Nat) (bytes : List Byte) : List Access :=
  cmdWrite k (encode .reset) :: (ingestWords bytes).map (cmdWrite k) ++ [cmdWrite k (encode .finalize)] ++ readDigest k

/-- The accesses to instance k that a line stands for (R78, R79). -/
def AsmLine.accesses (k : Nat) : AsmLine → List Access
  | .reset => [cmdWrite k (encode .reset)]
  | .ingest bytes => [cmdWrite k (encode (.ingest bytes))]
  | .finalize => [cmdWrite k (encode .finalize)]
  | .write off imm => [.write (.window k off) .word imm]
  | .read r => [readOf k r]
  | .ingestBytes bytes => (ingestWords bytes).map (cmdWrite k)
  | .ingestStr text => (ingestWords (Config.textEncoding text)).map (cmdWrite k)
  | .hashStr text => hashProgram k (Config.textEncoding text)

/-- A host program on instance k. -/
def assemble (k : Nat) (lines : List AsmLine) : List Access := lines.flatMap (AsmLine.accesses k)

/-- The host issues accesses after those it has issued already (R55). -/
def State.issue (prog : List Access) (s : State) : State := { s with pending := s.pending ++ prog }

end Sys2Proof.Machine
end

