-- ==== Sys2Proof/Machine/HostFunctions.lean ====
section
/-! DEFINITION. The host-side functions (46_host_functions.md R200 to R202), built on the engine's commands and registers. They
are host software, not hardware of the block (00_scope.md R4). -/

namespace Sys2Proof.Machine

/-- HEX of R200. -/
def hexDigit (n : BitVec 4) : Char :=
  ['0', '1', '2', '3', '4', '5', '6', '7', '8', '9', 'a', 'b', 'c', 'd', 'e', 'f'].getD n.toNat '0'

/-- The characters of `toHex` (R200), high nibble first. -/
def toHexChars (d : List Byte) : List Char :=
  d.flatMap fun b => [hexDigit (b.extractLsb' 4 4), hexDigit (b.extractLsb' 0 4)]

/-- `toHex` of R200. -/
def toHex (d : Vector Byte 20) : String := String.ofList (toHexChars d.toList)

/-- Run every access the host has issued. -/
def drain (s : State) : Host.Outcome State Fault Refusal := runSteps s.pending.length s

/-- The last five values instance k's READs returned. -/
def lastDigestReads (k : Nat) (s : State) : List Word :=
  match s.instAt k with
  | none => []
  | some i => i.reads.drop (i.reads.length - 5)

/-- `hashString` of R201 on the message bytes, on instance k: the machine after the run, and the hexadecimal characters of
`be32(RegRead(0x10)) ++ … ++ be32(RegRead(0x20))`. Accesses issued before are performed first (log entry 16). -/
def hashBytes (k : Nat) (bytes : List Byte) (s : State) : Host.Outcome (State × List Char) Fault Refusal :=
  match drain (s.issue (hashProgram k bytes)) with
  | .next t => .next (t, toHexChars ((lastDigestReads k t).flatMap be32))
  | .fault r => .fault r
  | .refused r => .refused r

/-- `hashString` of R201. The text's bytes are the host's choice, TEXT_ENCODING (D33). -/
def hashString (k : Nat) (text : String) (s : State) : Host.Outcome (State × String) Fault Refusal :=
  match hashBytes k (Config.textEncoding text) s with
  | .next (t, hex) => .next (t, String.ofList hex)
  | .fault r => .fault r
  | .refused r => .refused r

/-- `asciiLower` of R202 on one character: 'A'..'Z' to lowercase, every other character unchanged (D34). -/
def asciiLowerChar (c : Char) : Char := if 'A' ≤ c ∧ c ≤ 'Z' then Char.ofNat (c.toNat + 32) else c

/-- The comparison of R202: the candidate, lowered, equals the digest's characters, length included. -/
def sameDigest (candidate hex : List Char) : Bool := decide (candidate.map asciiLowerChar = hex)

/-- `verify` of R202 on the message bytes and the candidate's characters. -/
def verifyBytes (k : Nat) (bytes : List Byte) (candidate : List Char) (s : State) :
    Host.Outcome (State × Bool) Fault Refusal :=
  match hashBytes k bytes s with
  | .next (t, hex) => .next (t, sameDigest candidate hex)
  | .fault r => .fault r
  | .refused r => .refused r

/-- `verify` of R202 (log entry 15: a text is the list of its characters). -/
def verify (k : Nat) (text candidate : String) (s : State) : Host.Outcome (State × Bool) Fault Refusal :=
  verifyBytes k (Config.textEncoding text) candidate.toList s

/-- PHASE from a STATUS value (R35). Code 0b11 is never produced: a model that reads it from a claimed trace faults
(93_implementation_defined.md U11; log entry 14). -/
def phaseOfStatus (status : Word) : Host.Outcome Phase Fault Refusal :=
  match (status.extractLsb' 0 2).toNat with
  | 0 => .next .fresh
  | 1 => .next .accumulating
  | 2 => .next .finalized
  | _ => .fault (.reservedPhaseCode status)

end Sys2Proof.Machine
end

