-- ==== Sys2Proof/Machine/PaddingFsm.lean ====
section
/-! DEFINITION. The padding FSM that a hardware realisation of FINALIZE may use (44_finalizer.md R165). Its sub-state exists only
inside one command (10_state.md R30), so it is no part of State; only its end result is architectural. -/

namespace Sys2Proof.Machine

/-- The sub-states of R165; PAD_LEN carries its counter j. -/
inductive FsmState where
  | finCheck
  | padMark
  | padZero
  | padLen (j : Nat)
  | finEmit
  | finDone
  deriving DecidableEq, Repr

/-- The FSM with its register Nlen and the instance it works on. -/
structure PadFsm where
  st : FsmState
  nlen : Word64
  eng : Engine
  deriving DecidableEq, Repr

/-- One transition of R165. FIN_DONE only acknowledges the write. -/
def PadFsm.next (f : PadFsm) : PadFsm :=
  match f.st with
  | .finCheck =>
    if f.eng.phase = .finalized then { f with st := .finDone }
    else { f with st := .padMark, nlen := f.eng.bitcnt }
  | .padMark => { f with st := .padZero, eng := f.eng.push 0x80 }
  | .padZero =>
    if f.eng.buf.length = 56 then { f with st := .padLen 0 }
    else { f with eng := f.eng.push 0x00 }
  | .padLen j =>
    { f with
      st := if j + 1 = 8 then .finEmit else .padLen (j + 1)
      eng := f.eng.push ((be64 f.nlen).getD j 0) }
  | .finEmit => { f with st := .finDone, eng := { f.eng with memo := digestBytes f.eng.h, phase := .finalized } }
  | .finDone => f

/-- n transitions. -/
def PadFsm.run : Nat → PadFsm → PadFsm
  | 0, f => f
  | n + 1, f => PadFsm.run n f.next

/-- The FSM at the start of a FINALIZE command. -/
def PadFsm.start (e : Engine) : PadFsm where
  st := .finCheck
  nlen := 0
  eng := e

/-- Enough transitions for every buffer of at most 63 bytes: 1 for FIN_CHECK, 1 for PAD_MARK, at most 64 for PAD_ZERO, 8 for
PAD_LEN and 1 for FIN_EMIT. -/
def padFsmSteps : Nat := 75

/-- FINALIZE by the FSM of R165. -/
def Engine.finalizeByFsm (e : Engine) : Engine := (PadFsm.run padFsmSteps (PadFsm.start e)).eng

end Sys2Proof.Machine
end

