-- ==== Sys2Proof/Safety.lean ====
section
/-! DEFINITION. The terms claims are stated in: the invariants of 10_state.md R28, what message an instance holds
(43_accumulator.md R144, 44_finalizer.md R167), the blocks a command compresses (70_reset_and_hazards.md R262), and what a
successful end of a run is (60_exceptions.md R228, 70_reset_and_hazards.md R263). -/

namespace Sys2Proof.Machine

/-- The state invariants of R28 on one instance, with R27's "Its value while PHASE is not Finalized is zero". The number of
bytes of item 4 is not state, so it is quantified. -/
structure Engine.Inv (e : Engine) : Prop where
  bufShort : e.buf.length ≤ 63
  freshClean : e.phase = .fresh → e.h = iv ∧ e.buf = [] ∧ e.bitcnt = 0
  finalizedDigest : e.phase = .finalized → e.buf = [] ∧ e.memo = digestBytes e.h
  accumulatingCount : e.phase = .accumulating →
    ∃ n : Nat, e.bitcnt = BitVec.ofNat 64 (8 * n) ∧ e.buf.length = n % 64
  memoZero : e.phase ≠ .finalized → e.memo = Vector.replicate 20 0

/-- R28 on every instance of the platform. -/
def State.Inv (s : State) : Prop := s.inst.eng.Inv ∧ ∀ i ∈ s.others, i.eng.Inv

/-- The whole blocks of a byte sequence, in order. -/
def blocksOf (s : List Byte) : List (List Byte) :=
  (List.range (s.length / 64)).map fun j => slice s (64 * j) (64 * j + 64)

/-- The blocks a command compresses, in order (R141, R160, R262). -/
def blocksCompressed (i : Instr) (e : Engine) : List (List Byte) :=
  match i with
  | .reset => []
  | .ingest bytes => if e.phase = .finalized then [] else blocksOf (e.buf ++ bytes)
  | .finalize => if e.phase = .finalized then [] else blocksOf (pad e.buf e.bitcnt)

/-- The instance holds message m, ingested since its last reset: m's whole blocks are compressed from IV in order, the rest is
buffered, and BITCNT counts its bits mod 2^64 (R25, R141, R142). Fresh holds the empty message. -/
structure Engine.Holds (m : List Byte) (e : Engine) : Prop where
  hash : e.h = compressAll iv m
  rest : e.buf = m.drop (64 * (m.length / 64))
  count : e.bitcnt = BitVec.ofNat 64 (8 * m.length)
  lifecycle : e.phase = .accumulating ∨ e.phase = .fresh ∧ m = []

/-- `P` of R167: the padded message. -/
def paddedMessage (m : List Byte) : List Byte :=
  m ++ [0x80] ++ List.replicate (padZeros m.length) 0x00 ++ be64 (BitVec.ofNat 64 (8 * m.length))

/-- The right side of R167: the digest of message m in closed form. -/
def messageDigest (m : List Byte) : Vector Byte 20 := digestBytes (compressAll iv (paddedMessage m))

/-- Commands performed one after another, stopping at the first fault or refusal. -/
def runCommands : List Instr → State → Host.Outcome State Fault Refusal
  | [], s => .next s
  | i :: rest, s =>
    match exec i s with
    | .next t => runCommands rest t
    | .fault r => .fault r
    | .refused r => .refused r

/-- The command word an access writes to a CMD register, with the instance (R181): an aligned 32-bit write at offset 0x00. -/
def Access.command (a : Access) (s : State) : Option (Nat × Word) :=
  match a with
  | .write t .word v =>
    match resolve t s with
    | some (k, 0) => some (k, v)
    | _ => none
  | _ => none

/-- The instance an access reaches (R51, R233). -/
def Access.reaches (a : Access) (s : State) : Option Nat :=
  match a with
  | .write t _ _ => (resolve t s).map Prod.fst
  | .read t _ => (resolve t s).map Prod.fst
  | .hardReset k => some k

/-- The access resets instance k: it asserts its reset input, or writes RESET to its CMD register (R180, R250). -/
def Access.resets (a : Access) (k : Nat) (s : State) : Prop :=
  a = .hardReset k ∨ ∃ w, a.command s = some (k, w) ∧ decode w = .legal .reset

/-- A run of instance k ended well: nothing is pending and its fault log is empty. "A run whose fault log is non-empty is never
a successful end" (R263, R228). -/
def State.SuccessfulEnd (s : State) (k : Nat) : Prop := s.pending = [] ∧ (s.instAt k).map Instance.faultLog = some []

end Sys2Proof.Machine
end

