-- ==== Sys2Proof/Certificates/Slice0/Obligations.lean ====
section
/-! DEFINITION. The statements for the provers. Each docstring names the rule of spec/ it formalises. A rule the spec marks
"[derived: …]" is the spec's own inference, so a statement of it has basis 'derived'. -/

open Sys2Proof Sys2Proof.Machine

/-! ### Encoding and decoding (30_encoding.md) -/

/-- Words of the table of 95_test_vectors.md V-45-1: each decodes to the command, or the reason for Illegal, given there. -/
def Obligations.SampleWordsDecode : Prop :=
  decode 0x10000000 = .legal .reset ∧ decode 0x30000000 = .legal .finalize ∧
  decode 0x20000000 = .legal (.ingest []) ∧ decode 0x21610000 = .legal (.ingest [0x61]) ∧
  decode 0x22626300 = .legal (.ingest [0x62, 0x63]) ∧ decode 0x23616263 = .legal (.ingest [0x61, 0x62, 0x63]) ∧
  decode 0x00000000 = .illegal .reservedOpcode ∧ decode 0xF0000000 = .illegal .reservedOpcode ∧
  decode 0x10000001 = .illegal .zeroFieldSet ∧ decode 0x30800000 = .illegal .zeroFieldSet ∧
  decode 0x24000000 = .illegal .reservedBitsSet ∧ decode 0x21610001 = .illegal .unusedByteSet ∧
  decode 0x20010000 = .illegal .unusedByteSet

/-- Decode and encode agree on every well-formed command, with every payload (R74's encodings). -/
def Obligations.DecodeEncodeRoundTrip : Prop :=
  ∀ i : Instr, i.wellFormed = true → decode (encode i) = .legal i

/-- R74: "Every legal command has exactly one word": a word that decodes to a command is that command's encoding, and the command
is well formed. So no two words mean the same command, and no bit of a legal word is dropped. -/
def Obligations.LegalWordIsTheEncoding : Prop :=
  ∀ (w : Word) (i : Instr), decode w = .legal i → i.wellFormed = true ∧ w = encode i

/-- R76: the four bullets are exactly the illegal words, and writing one to CMD changes nothing but ILL and the model's fault log
(R228), whatever PHASE is. -/
def Obligations.IllegalWordsExactly : Prop :=
  ∀ w : Word,
    ((∃ r, decode w = .illegal r) ↔
      (opField w = 0x0 ∨ 0x4 ≤ opField w) ∨
      ((opField w = 0x1 ∨ opField w = 0x3) ∧ zeroField w ≠ 0) ∨
      (opField w = 0x2 ∧ rsvField w ≠ 0) ∨
      (opField w = 0x2 ∧ ((countField w < 1 ∧ dataField0 w ≠ 0) ∨ (countField w < 2 ∧ dataField1 w ≠ 0) ∨
        (countField w < 3 ∧ dataField2 w ≠ 0)))) ∧
    ∀ s : State, (∃ r, decode w = .illegal r) →
      regWrite 0x00 w s = .next { s with inst := { s.inst with
        eng := { s.inst.eng with ill := true }, faultLog := s.inst.faultLog ++ [.illegalCommand w] } }

/-- R73: N is word[25:24], and the payload of a legal INGEST word is its bytes at 23:16, 15:8 and 7:0, in that order, truncated to
the first N; N = 0 is legal and carries the empty chunk. -/
def Obligations.IngestPayloadAssembly : Prop :=
  (∀ (w : Word) (bytes : List Byte), decode w = .legal (.ingest bytes) →
    bytes.length = (w.extractLsb' 24 2).toNat ∧
    (1 ≤ bytes.length → bytes[0]? = some (w.extractLsb' 16 8)) ∧
    (2 ≤ bytes.length → bytes[1]? = some (w.extractLsb' 8 8)) ∧
    (3 ≤ bytes.length → bytes[2]? = some (w.extractLsb' 0 8))) ∧
  decode 0x20000000 = .legal (.ingest [])

/-! ### The step -/

/-- R181: a host write of v to CMD of instance k runs the decoded command on that instance and nothing else, or raises
IllegalCommand. Around exec the step removes the access from `pending`, performs on instance k, and puts it back. -/
def Obligations.StepRunsTheDecodedCommand : Prop :=
  ∀ (s : State) (a : Access) (rest : List Access) (k : Nat) (v : Word) (j : Instance),
    s.pending = a :: rest → a.command s = some (k, v) → s.instAt k = some j →
    (∀ i, decode v = .legal i →
      step s = match exec i { s with inst := j, pending := rest } with
        | .next t => .next (State.setInst k t.inst { t with inst := s.inst })
        | .fault r => .fault r
        | .refused r => .refused r) ∧
    (∀ i, decode v = .legal i → k = 0 → step s = exec i { s with pending := rest }) ∧
    (∀ r, decode v = .illegal r →
      step s = .next (State.setInst k
        { j with eng := { j.eng with ill := true }, faultLog := j.faultLog ++ [.illegalCommand v] }
        { s with pending := rest }))

/-- The model's convention (log entry 11): after withFetchWord, the next step runs the command the decoder reads, on instance 0. -/
def Obligations.FetchWordRunsNext : Prop :=
  ∀ (s : State) (nbits w : Nat) (i : Instr), decodeTableWord nbits w = some i →
    step (s.withFetchWord nbits w) = exec i s

/-- R20, R235 and log entry 1: with no access pending the machine holds its state. -/
def Obligations.IdleHoldsState : Prop :=
  ∀ s : State, s.pending = [] → step s = .next s

/-- Which accesses a step answers with a next state: every hardware reset and every aligned 32-bit access inside the window of
an instance that is there, whatever word it writes. And no step ends in a fault (R222, R226, R227, R230; log entries 2, 3). -/
def Obligations.StepCompletes : Prop :=
  (∀ (s : State) (a : Access) (rest : List Access) (t : Target) (v : Word) (k off : Nat),
    s.pending = a :: rest → (a = .write t .word v ∨ a = .read t .word) → resolve t s = some (k, off) → off % 4 = 0 →
    s.instAt k ≠ none → ∃ u, step s = .next u) ∧
  (∀ (s : State) (rest : List Access) (k : Nat), s.pending = .hardReset k :: rest → s.instAt k ≠ none →
    ∃ u, step s = .next u) ∧
  (∀ (s : State) (r : Fault), step s ≠ .fault r)

/-- R188: the model refuses the three kinds of access, each under its own name; offsets 0x00..0x3F are the window (R51). The names
and their order are the model's (log entry 3). -/
def Obligations.BadAccessRefused : Prop :=
  ∀ (s : State) (a : Access) (rest : List Access) (t : Target) (width : Width) (v : Word),
    s.pending = a :: rest → (a = .write t width v ∨ a = .read t width) →
    (resolve t s = none → step s = .refused (.outsideWindow t)) ∧
    (∀ k off, resolve t s = some (k, off) → off % 4 ≠ 0 → step s = .refused (.misaligned off)) ∧
    (∀ k off, resolve t s = some (k, off) → off % 4 = 0 → width ≠ .word → step s = .refused (.subWord width)) ∧
    (∀ k off, t = .window k off → (resolve t s = none ↔ 0x3F < off))

/-- R51, R233: an address in instance k's window, and in no window of a lower index, reaches instance k at its offset from BASE; an
address in no window reaches nothing. That a lower index wins is the model's choice (log entry 5). -/
def Obligations.AddressReachesItsWindow : Prop :=
  ∀ (bases : Nat → Nat) (n a : Nat),
    (∀ k, k < n → bases k ≤ a → a ≤ bases k + 0x3F →
      (∀ j, j < k → ¬ (bases j ≤ a ∧ a ≤ bases j + 0x3F)) → locate bases n a = some (k, a - bases k)) ∧
    ((∀ k, k < n → ¬ (bases k ≤ a ∧ a ≤ bases k + 0x3F)) → locate bases n a = none)

/-! ### RESET, hardware reset and the reset state -/

/-- R180: RESET writes every persistent state of R21, in every PHASE, and nothing else. -/
def Obligations.ResetResult : Prop :=
  ∀ s : State, exec .reset s = .next { s with inst := { s.inst with eng := {
    h := iv, buf := [], bitcnt := 0, phase := .fresh, memo := Vector.replicate 20 0, ill := false, seq := false } } }

/-- R250: hardware reset of instance k gives it the values RESET writes; its logs stay (R228, D13), and so does every other
instance. -/
def Obligations.HardwareResetWritesTheResetValues : Prop :=
  ∀ (s : State) (rest : List Access) (k : Nat) (j : Instance), s.pending = .hardReset k :: rest → s.instAt k = some j →
    step s = .next (State.setInst k { j with eng := {
      h := iv, buf := [], bitcnt := 0, phase := .fresh, memo := Vector.replicate 20 0, ill := false, seq := false } }
      { s with pending := rest }) ∧
    ∃ t, exec .reset { s with inst := j, pending := rest } = .next t ∧
      step s = .next (State.setInst k t.inst { s with pending := rest })

/-- The reset state (R36), IV written out (R24: the spec takes the five words "[from general knowledge, not in source]"; log entry
6). The logs and the empty `pending` are the model's own (log entry 10). -/
def Obligations.ResetStateValues : Prop :=
  State.reset.inst.eng = {
    h := { h0 := 0x67452301, h1 := 0xEFCDAB89, h2 := 0x98BADCFE, h3 := 0x10325476, h4 := 0xC3D2E1F0 }
    buf := [], bitcnt := 0, phase := .fresh, memo := Vector.replicate 20 0, ill := false, seq := false } ∧
  State.reset.inst.reads = [] ∧ State.reset.inst.faultLog = [] ∧ State.reset.pending = [] ∧
  (∀ i ∈ State.reset.others, i = State.reset.inst) ∧ State.reset.numInstances = Config.numInstances

/-- R253: after any sequence of commands, from any state, RESET and then FINALIZE give the digest of the empty message,
da39a3ee 5e6b4b0d 3255bfef 95601890 afd80709. -/
def Obligations.ResetThenFinalizeGivesEmptyDigest : Prop :=
  ∀ (commands : List Instr) (s : State), ∃ t, runCommands (commands ++ [.reset, .finalize]) s = .next t ∧
    t.inst.eng.phase = .finalized ∧
    t.inst.eng.memo = digestBytes { h0 := 0xda39a3ee, h1 := 0x5e6b4b0d, h2 := 0x3255bfef, h3 := 0x95601890, h4 := 0xafd80709 }

/-! ### INGEST -/

/-- R140 in its own form: while Finalized, INGEST raises SequenceError (R143) and nothing else runs; else it pushes its bytes in order,
adds 8 a byte to BITCNT mod 2^64, moves PHASE to Accumulating and changes nothing else. -/
def Obligations.IngestResult : Prop :=
  ∀ (s : State) (bytes : List Byte),
    (s.inst.eng.phase ≠ .finalized → exec (.ingest bytes) s = .next { s with inst := { s.inst with eng := {
      bytes.foldl Engine.push s.inst.eng with
      bitcnt := s.inst.eng.bitcnt + BitVec.ofNat 64 (8 * bytes.length), phase := .accumulating } } }) ∧
    (s.inst.eng.phase = .finalized →
      exec (.ingest bytes) s = .next (raise (.sequenceError (encode (.ingest bytes))) s))

/-- R141: push of a byte to a buffer of fewer than 63 bytes appends it; push of the byte that makes 64 compresses the 64 bytes in
order and empties the buffer; nothing else changes; and so the buffer has at most 63 bytes when every command ends. -/
def Obligations.PushAppendsThenFlushes : Prop :=
  (∀ (e : Engine) (x : Byte),
    (e.buf.length < 63 → e.push x = { e with buf := e.buf ++ [x] }) ∧
    (e.buf.length = 63 → e.push x = { e with h := compress e.h (e.buf ++ [x]), buf := [] })) ∧
  (∀ (s t : State) (i : Instr), s.inst.eng.buf.length ≤ 63 → exec i s = .next t → t.inst.eng.buf.length ≤ 63)

/-- What one INGEST word does to BUF and H at every buffer length (the corner cases of R145 among them): short of 64 bytes it only
buffers; at 64 or more it compresses the first 64 once, at once, and buffers the rest. MEMO, ILL, SEQ, the logs, the other
instances and the pending accesses stay. -/
def Obligations.IngestAtEveryBufferLength : Prop :=
  ∀ (s : State) (bytes : List Byte), s.inst.eng.phase ≠ .finalized → s.inst.eng.buf.length ≤ 63 →
    (Instr.ingest bytes).wellFormed = true →
    ∃ t, exec (.ingest bytes) s = .next t ∧
      (s.inst.eng.buf.length + bytes.length < 64 →
        t.inst.eng.h = s.inst.eng.h ∧ t.inst.eng.buf = s.inst.eng.buf ++ bytes) ∧
      (64 ≤ s.inst.eng.buf.length + bytes.length →
        t.inst.eng.h = compress s.inst.eng.h ((s.inst.eng.buf ++ bytes).take 64) ∧
        t.inst.eng.buf = (s.inst.eng.buf ++ bytes).drop 64) ∧
      t.inst.eng.bitcnt.toNat = (s.inst.eng.bitcnt.toNat + 8 * bytes.length) % 2 ^ 64 ∧
      t.inst.eng.phase = .accumulating ∧ t.inst.eng.memo = s.inst.eng.memo ∧
      t.inst.eng.ill = s.inst.eng.ill ∧ t.inst.eng.seq = s.inst.eng.seq ∧
      t.inst.reads = s.inst.reads ∧ t.inst.faultLog = s.inst.faultLog ∧
      t.others = s.others ∧ t.pending = s.pending

/-- R143: INGEST while Finalized leaves H, BUF, BITCNT, PHASE and MEMO, sets SEQ, and raises SequenceError, which the model records
with the command's word (R228). -/
def Obligations.IngestWhileFinalized : Prop :=
  ∀ (s : State) (bytes : List Byte), s.inst.eng.phase = .finalized →
    exec (.ingest bytes) s = .next { s with inst := { s.inst with
      eng := { s.inst.eng with seq := true },
      faultLog := s.inst.faultLog ++ [.sequenceError (encode (.ingest bytes))] } }

/-- The frame of INGEST in every PHASE: MEMO, ILL, the host's reads, the other instances and the pending accesses stay; the fault
log and SEQ change only by SequenceError. -/
def Obligations.IngestFrame : Prop :=
  ∀ (s t : State) (bytes : List Byte), exec (.ingest bytes) s = .next t →
    t.inst.eng.memo = s.inst.eng.memo ∧ t.inst.eng.ill = s.inst.eng.ill ∧ t.inst.reads = s.inst.reads ∧
    t.others = s.others ∧ t.pending = s.pending ∧
    (s.inst.eng.phase ≠ .finalized → t.inst.eng.seq = s.inst.eng.seq ∧ t.inst.faultLog = s.inst.faultLog) ∧
    (s.inst.eng.phase = .finalized → t.inst.eng.h = s.inst.eng.h ∧ t.inst.eng.buf = s.inst.eng.buf ∧
      t.inst.eng.bitcnt = s.inst.eng.bitcnt ∧ t.inst.eng.phase = .finalized)

/-- R228 with R221: a legal INGEST word written to CMD of a Finalized instance sets SEQ and is recorded as SequenceError with that
very word; nothing else changes. -/
def Obligations.SequenceErrorRecordsTheWord : Prop :=
  ∀ (s : State) (a : Access) (rest : List Access) (k : Nat) (w : Word) (bytes : List Byte) (j : Instance),
    s.pending = a :: rest → a.command s = some (k, w) → s.instAt k = some j →
    decode w = .legal (.ingest bytes) → j.eng.phase = .finalized →
    step s = .next (State.setInst k
      { j with eng := { j.eng with seq := true }, faultLog := j.faultLog ++ [.sequenceError w] }
      { s with pending := rest })

/-- R144: any two runs of one or more INGEST commands whose payloads, joined, are equal end in the same state. -/
def Obligations.ChunkingInvariance : Prop :=
  ∀ (s : State) (c1 c2 : List (List Byte)), s.inst.eng.phase ≠ .finalized → s.inst.eng.buf.length ≤ 63 →
    c1 ≠ [] → c2 ≠ [] → c1.flatten = c2.flatten →
    ∃ t, runCommands (c1.map Instr.ingest) s = .next t ∧ runCommands (c2.map Instr.ingest) s = .next t

/-- R25, R141, R142: an instance that holds message m holds m followed by the payload after an INGEST. -/
def Obligations.IngestAppendsToTheMessage : Prop :=
  ∀ (s : State) (m bytes : List Byte), s.inst.eng.Holds m →
    ∃ t, exec (.ingest bytes) s = .next t ∧ t.inst.eng.Holds (m ++ bytes)

/-! ### FINALIZE -/

/-- R160: while Finalized FINALIZE returns at once; else it compresses the blocks of T = pad(BUF, BITCNT) in order, empties BUF,
memoizes the digest of the new H, moves PHASE to Finalized, and changes nothing else (BITCNT, ILL and SEQ among it). -/
def Obligations.FinalizeResult : Prop :=
  ∀ s : State,
    (s.inst.eng.phase = .finalized → exec .finalize s = .next s) ∧
    (s.inst.eng.phase ≠ .finalized → ∃ h : HashState,
      h = (List.range ((pad s.inst.eng.buf s.inst.eng.bitcnt).length / 64)).foldl (fun g j =>
        compress g (((pad s.inst.eng.buf s.inst.eng.bitcnt).drop (64 * j)).take 64)) s.inst.eng.h ∧
      exec .finalize s = .next { s with inst := { s.inst with eng := {
        s.inst.eng with h := h, buf := [], memo := digestBytes h, phase := .finalized } } })

/-- One padding block for L at most 55 and two from 56 to 63, written out (the corner cases of R166; the block counts of R162). -/
def Obligations.FinalizeOneOrTwoBlocks : Prop :=
  ∀ s : State, s.inst.eng.phase ≠ .finalized →
    (s.inst.eng.buf.length ≤ 55 → ∃ t, exec .finalize s = .next t ∧
      t.inst.eng.h = compress s.inst.eng.h (s.inst.eng.buf ++ [0x80] ++
        List.replicate (55 - s.inst.eng.buf.length) 0x00 ++ be64 s.inst.eng.bitcnt)) ∧
    (56 ≤ s.inst.eng.buf.length → s.inst.eng.buf.length ≤ 63 → ∃ t, exec .finalize s = .next t ∧
      t.inst.eng.h = compress (compress s.inst.eng.h (s.inst.eng.buf ++ [0x80] ++
        List.replicate (63 - s.inst.eng.buf.length) 0x00)) (List.replicate 56 0x00 ++ be64 s.inst.eng.bitcnt))

/-- R164: FINALIZE while Finalized is a no-op, and so DIGEST0..4 read the same. -/
def Obligations.FinalizeWhileFinalizedIsNoOp : Prop :=
  (∀ s : State, s.inst.eng.phase = .finalized → exec .finalize s = .next s) ∧
  (∀ s t : State, exec .finalize s = .next t → exec .finalize t = .next t)

/-- R161: pad's formula; z is 55 - L up to 55 and 119 - L from 56 to 63, and it is the least z with (L + 1 + z) mod 64 = 56;
FINALIZE does not increment BITCNT. -/
def Obligations.PaddingFormula : Prop :=
  (∀ (buf : List Byte) (n : Word64), buf.length ≤ 63 → ∃ z : Nat,
    pad buf n = buf ++ [0x80] ++ List.replicate z 0x00 ++ be64 n ∧
    (buf.length ≤ 55 → z = 55 - buf.length) ∧ (56 ≤ buf.length → z = 119 - buf.length) ∧
    (buf.length + 1 + z) % 64 = 56 ∧ ∀ y, y < z → (buf.length + 1 + y) % 64 ≠ 56) ∧
  (∀ s t : State, exec .finalize s = .next t → t.inst.eng.bitcnt = s.inst.eng.bitcnt)

/-- R165: the padding FSM, run for one command, writes what R160 writes and nothing else. -/
def Obligations.PaddingFsmEqualsFinalize : Prop :=
  ∀ e : Engine, e.buf.length ≤ 63 →
    e.finalizeByFsm = e.finalize ∧ (PadFsm.run padFsmSteps (PadFsm.start e)).st = .finDone

/-- R163: after FINALIZE from Fresh or Accumulating, DIGESTk reads H[k], and digest byte 4k+m is bits 31-8m:24-8m of it. -/
def Obligations.DigestRegistersShowH : Prop :=
  ∀ s : State, s.inst.eng.phase ≠ .finalized → ∃ t, exec .finalize s = .next t ∧
    t.inst.eng.memo = digestBytes t.inst.eng.h ∧
    regRead 0x10 t.inst.eng = t.inst.eng.h.h0 ∧ regRead 0x14 t.inst.eng = t.inst.eng.h.h1 ∧
    regRead 0x18 t.inst.eng = t.inst.eng.h.h2 ∧ regRead 0x1C t.inst.eng = t.inst.eng.h.h3 ∧
    regRead 0x20 t.inst.eng = t.inst.eng.h.h4 ∧
    ∀ (k : Fin 5) (m : Fin 4),
      t.inst.eng.memo[4 * k.val + m.val] = (digestReg k t.inst.eng).extractLsb' (24 - 8 * m.val) 8

/-- R167, the closed form: from any state, RESET, INGEST commands carrying message m in any split, and FINALIZE give MEMO the
digest of m's padded blocks from IV. -/
def Obligations.DigestClosedForm : Prop :=
  ∀ (s : State) (chunks : List (List Byte)),
    ∃ t, runCommands (.reset :: chunks.map Instr.ingest ++ [.finalize]) s = .next t ∧
      t.inst.eng.phase = .finalized ∧ t.inst.faultLog = s.inst.faultLog ∧
      t.inst.eng.memo = digestBytes (compressAll iv (chunks.flatten ++ [0x80] ++
        List.replicate ((119 - chunks.flatten.length % 64) % 64) 0x00 ++
        be64 (BitVec.ofNat 64 (8 * chunks.flatten.length))))

/-- The source's two worked digests (95_test_vectors.md V-L1-1, and V-L1-2 with the last character restored by 90_conflicts.md C1),
in the closed form. -/
def Obligations.WorkedDigests : Prop :=
  messageDigest [] = digestBytes { h0 := 0xda39a3ee, h1 := 0x5e6b4b0d, h2 := 0x3255bfef, h3 := 0x95601890, h4 := 0xafd80709 } ∧
  messageDigest [0x61, 0x62, 0x63] =
    digestBytes { h0 := 0xa9993e36, h1 := 0x4706816a, h2 := 0xba3e2571, h3 := 0x7850c26c, h4 := 0x9cd0d89d }

/-! ### Codec, schedule and compression -/

/-- R9: bit i of rotl(x, n) is bit (i - n) mod 32 of x. -/
def Obligations.RotateMovesBits : Prop :=
  ∀ (x : Word) (n i : Nat), 0 < n → n < 32 → i < 32 → (rotl x n).getLsbD i = x.getLsbD ((i + 32 - n) % 32)

/-- R105, the codec laws. -/
def Obligations.CodecLaws : Prop :=
  (∀ x : Word, be32 x = [x.extractLsb' 24 8, x.extractLsb' 16 8, x.extractLsb' 8 8, x.extractLsb' 0 8] ∧
    unbe32 (x.extractLsb' 24 8) (x.extractLsb' 16 8) (x.extractLsb' 8 8) (x.extractLsb' 0 8) = x) ∧
  (∀ s0 s1 s2 s3 : Byte, be32 (unbe32 s0 s1 s2 s3) = [s0, s1, s2, s3]) ∧
  (∀ block : List Byte, block.length = 64 → (words16 block).flatMap be32 = block)

/-- R102: be64 is eight bytes and byte j is n[63-8j : 56-8j]. -/
def Obligations.LengthEncoding : Prop :=
  ∀ n : Word64, be64 n = be32 (n.extractLsb' 32 32) ++ be32 (n.extractLsb' 0 32) ∧ (be64 n).length = 8 ∧
    ∀ j, j < 8 → (be64 n)[j]? = some (n.extractLsb' (56 - 8 * j) 8)

/-- R110 with R103: 80 words; W[t] for t up to 15 is the block's t-th big-endian word, and from 16 the rotated XOR of four earlier
words. -/
def Obligations.ScheduleRecurrence : Prop :=
  ∀ block : List Byte, block.length = 64 →
    (schedule block).length = 80 ∧
    (∀ t, t < 16 → ∃ s0 s1 s2 s3, slice block (4 * t) (4 * t + 4) = [s0, s1, s2, s3] ∧
      (schedule block)[t]? = some (unbe32 s0 s1 s2 s3)) ∧
    (∀ t, 16 ≤ t → t < 80 → (schedule block)[t]? = some (rotl ((schedule block).getD (t - 3) 0 ^^^
      (schedule block).getD (t - 8) 0 ^^^ (schedule block).getD (t - 14) 0 ^^^ (schedule block).getD (t - 16) 0) 1))

/-- R120: the table of f and k over the closed ranges, and its corner cases: choice, parity and majority, bit by bit. -/
def Obligations.RoundFunctionTable : Prop :=
  ∀ (t : Nat) (b c d : Word),
    (t ≤ 19 → roundF t b c d = (b &&& c) ||| (~~~b &&& d) ∧ roundK t = 0x5A827999 ∧
      (∀ i, i < 32 → (roundF t b c d).getLsbD i = if b.getLsbD i then c.getLsbD i else d.getLsbD i) ∧
      roundF t 0xFFFFFFFF c d = c ∧ roundF t 0 c d = d) ∧
    (20 ≤ t → t ≤ 39 → roundF t b c d = b ^^^ c ^^^ d ∧ roundK t = 0x6ED9EBA1 ∧ roundF t b b c = c) ∧
    (40 ≤ t → t ≤ 59 → roundF t b c d = (b &&& c) ||| (b &&& d) ||| (c &&& d) ∧ roundK t = 0x8F1BBCDC ∧
      (∀ i, i < 32 → (roundF t b c d).getLsbD i =
        decide (2 ≤ (b.getLsbD i).toNat + (c.getLsbD i).toNat + (d.getLsbD i).toNat)) ∧
      roundF t b b c = b ∧ roundF t b (~~~b) c = c) ∧
    (60 ≤ t → t ≤ 79 → roundF t b c d = b ^^^ c ^^^ d ∧ roundK t = 0xCA62C1D6 ∧ roundF t b b c = c)

/-- R122 with R121: compress is the 80 rounds t = 0..79 on (a, b, c, d, e) = H with W[t] of the schedule, then the five additions
mod 2^32. -/
def Obligations.CompressIsEightyRounds : Prop :=
  ∀ (h : HashState) (block : List Byte), block.length = 64 → ∃ v : HashState,
    v = (List.range 80).foldl (fun x t => {
      h0 := rotl x.h0 5 + roundF t x.h1 x.h2 x.h3 + x.h4 + roundK t + (schedule block).getD t 0
      h1 := x.h0, h2 := rotl x.h1 30, h3 := x.h2, h4 := x.h3 }) h ∧
    compress h block = {
      h0 := h.h0 + v.h0, h1 := h.h1 + v.h1, h2 := h.h2 + v.h2, h3 := h.h3 + v.h3, h4 := h.h4 + v.h4 }

/-- R112, R124: the 16-word shift window gives round t the word W[t] of R110, so the on-the-fly realisation writes the same H. -/
def Obligations.ScheduleWindowConforms : Prop :=
  ∀ (h : HashState) (block : List Byte), block.length = 64 →
    (∀ t, t < 80 → scheduleWord (windowShift^[t] (words16 block)) 0 = (schedule block).getD t 0) ∧
    compressOnTheFly h block = compress h block

/-- The compressions of each command (the table of R262): H after a command is H before it with the command's blocks compressed in
order, and how many those are. -/
def Obligations.CompressionCounts : Prop :=
  (∀ (s t : State) (i : Instr), i ≠ .reset → s.inst.eng.buf.length ≤ 63 → exec i s = .next t →
    t.inst.eng.h = (blocksCompressed i s.inst.eng).foldl compress s.inst.eng.h) ∧
  (∀ e : Engine, (blocksCompressed .reset e).length = 0) ∧
  (∀ (e : Engine) (bytes : List Byte), e.buf.length ≤ 63 → bytes.length ≤ 3 →
    (blocksCompressed (.ingest bytes) e).length =
      if e.phase = .finalized then 0 else if 64 ≤ e.buf.length + bytes.length then 1 else 0) ∧
  (∀ e : Engine, e.buf.length ≤ 63 →
    (blocksCompressed .finalize e).length =
      if e.phase = .finalized then 0 else if e.buf.length ≤ 55 then 1 else 2)

/-! ### Lifecycle and invariants -/

/-- R26: the transition table, every command from every PHASE. -/
def Obligations.PhaseTransitions : Prop :=
  ∀ s : State,
    (∃ t, exec .reset s = .next t ∧ t.inst.eng.phase = .fresh) ∧
    (∀ bytes, ∃ t, exec (.ingest bytes) s = .next t ∧
      (s.inst.eng.phase = .fresh → t.inst.eng.phase = .accumulating) ∧
      (s.inst.eng.phase = .accumulating → t.inst.eng.phase = .accumulating) ∧
      (s.inst.eng.phase = .finalized → t.inst.eng.phase = .finalized ∧ t.inst.eng.seq = true)) ∧
    (∃ t, exec .finalize s = .next t ∧ t.inst.eng.phase = .finalized ∧
      (s.inst.eng.phase = .finalized → t = s))

/-- R28 (with R27's zero MEMO) is kept by every step, from every state that meets it. -/
def Obligations.StepKeepsInvariants : Prop :=
  ∀ s t : State, s.Inv → step s = .next t → t.Inv

/-- R28 holds in the reset state. -/
def Obligations.ResetMeetsInvariants : Prop := State.reset.Inv

/-- Every digest an instance shows is right: if each instance holds a message or is Finalized with the digest of one, a step leaves it
so (R25, R27, R167). -/
def Obligations.StepKeepsDigestsRight : Prop :=
  ∀ s t : State,
    (∀ k j, s.instAt k = some j → (∃ m, j.eng.Holds m) ∨
      ∃ m, j.eng.phase = .finalized ∧ j.eng.memo = messageDigest m) →
    step s = .next t →
    ∀ k j, t.instAt k = some j → (∃ m, j.eng.Holds m) ∨
      ∃ m, j.eng.phase = .finalized ∧ j.eng.memo = messageDigest m

/-- R26, R27 and R28 item 3: while an instance is Finalized, only a reset of it changes H, BUF, BITCNT, PHASE or MEMO, whatever
access is performed. -/
def Obligations.FinalizedUntilReset : Prop :=
  ∀ (s t : State) (a : Access) (rest : List Access) (k : Nat) (j : Instance),
    s.pending = a :: rest → step s = .next t → s.instAt k = some j → j.eng.phase = .finalized →
    ¬ a.resets k s →
    ∃ u, t.instAt k = some u ∧ u.eng.h = j.eng.h ∧ u.eng.buf = j.eng.buf ∧ u.eng.bitcnt = j.eng.bitcnt ∧
      u.eng.phase = .finalized ∧ u.eng.memo = j.eng.memo

/-! ### Errors and logs -/

/-- R189: an illegal word written to CMD, in every PHASE, sets ILL, is recorded with the word, and changes nothing else; so a word
illegal by its reserved bits in Finalized sets ILL, not SEQ (R225). -/
def Obligations.IllegalCommandSetsOnlyIll : Prop :=
  ∀ (s : State) (a : Access) (rest : List Access) (k : Nat) (w : Word) (r : IllegalReason) (j : Instance),
    s.pending = a :: rest → a.command s = some (k, w) → s.instAt k = some j → decode w = .illegal r →
    ∃ t u, step s = .next t ∧ t.instAt k = some u ∧ u.eng.ill = true ∧
      u.eng.h = j.eng.h ∧ u.eng.buf = j.eng.buf ∧ u.eng.bitcnt = j.eng.bitcnt ∧ u.eng.phase = j.eng.phase ∧
      u.eng.memo = j.eng.memo ∧ u.eng.seq = j.eng.seq ∧ u.reads = j.reads ∧
      u.faultLog = j.faultLog ++ [.illegalCommand w] ∧ t.pending = rest ∧ ∀ n, n ≠ k → t.instAt n = s.instAt n

/-- R227: no command returns from an error: ILL and SEQ stay 1 until RESET or hardware reset of the instance, whatever access is
performed (a further event included), and those clear both; and commands keep executing normally while the bits are set: a
command gives the same H, BUF, BITCNT, PHASE and MEMO whatever the two bits are. -/
def Obligations.StickyBitsStayAndDoNotStop : Prop :=
  (∀ (s t : State) (a : Access) (rest : List Access) (k : Nat) (j : Instance),
    s.pending = a :: rest → step s = .next t → s.instAt k = some j → ¬ a.resets k s →
    ∃ u, t.instAt k = some u ∧ (j.eng.ill = true → u.eng.ill = true) ∧ (j.eng.seq = true → u.eng.seq = true)) ∧
  (∀ (s : State) (a : Access) (rest : List Access) (k : Nat) (j : Instance),
    s.pending = a :: rest → s.instAt k = some j → a.resets k s →
    ∃ t u, step s = .next t ∧ t.instAt k = some u ∧ u.eng.ill = false ∧ u.eng.seq = false) ∧
  (∀ (s : State) (i : Instr) (ill seq : Bool), ∃ t u, exec i s = .next t ∧
    exec i { s with inst := { s.inst with eng := { s.inst.eng with ill := ill, seq := seq } } } = .next u ∧
    u.inst.eng.h = t.inst.eng.h ∧ u.inst.eng.buf = t.inst.eng.buf ∧ u.inst.eng.bitcnt = t.inst.eng.bitcnt ∧
    u.inst.eng.phase = t.inst.eng.phase ∧ u.inst.eng.memo = t.inst.eng.memo)

/-- R228: each IllegalCommand and SequenceError is recorded with the offending word; the fault log is never cleared, not even by RESET or
hardware reset (a step appends at most one event to it, R225); and a faulted run never ends successfully, however it goes on. -/
def Obligations.FaultLogRecordsAndIsNeverCleared : Prop :=
  (∀ (s : State) (a : Access) (rest : List Access) (k : Nat) (w : Word) (j : Instance),
    s.pending = a :: rest → a.command s = some (k, w) → s.instAt k = some j →
    ∃ t u, step s = .next t ∧ t.instAt k = some u ∧
      (∀ r, decode w = .illegal r → u.faultLog = j.faultLog ++ [.illegalCommand w]) ∧
      (∀ bytes, decode w = .legal (.ingest bytes) → j.eng.phase = .finalized →
        u.faultLog = j.faultLog ++ [.sequenceError w])) ∧
  (∀ (s t : State) (k : Nat) (j : Instance), step s = .next t → s.instAt k = some j →
    ∃ u, t.instAt k = some u ∧ (u.faultLog = j.faultLog ∨ ∃ ev, u.faultLog = j.faultLog ++ [ev])) ∧
  (∀ (n : Nat) (s t : State) (k : Nat) (j : Instance), s.instAt k = some j → j.faultLog ≠ [] →
    runSteps n s = .next t → ¬ t.SuccessfulEnd k)

/-- R220, R221 with R35: an event has its code, and changes STATUS in its one bit, ILL in 16 or SEQ in 17. -/
def Obligations.EventSetsItsStatusBit : Prop :=
  ∀ (e : Engine) (w : Word),
    (Event.illegalCommand w).code = 1 ∧ (Event.sequenceError w).code = 2 ∧
    statusWord (e.setSticky (.illegalCommand w)) = statusWord e ||| (1#32 <<< 16) ∧
    statusWord (e.setSticky (.sequenceError w)) = statusWord e ||| (1#32 <<< 17)

/-! ### Register access -/

/-- R185: a read of an aligned word offset of instance k returns the value of the table, which the host logs; no engine state and
nothing else changes. -/
def Obligations.RegisterReads : Prop :=
  ∀ (s : State) (t : Target) (rest : List Access) (k off : Nat) (j : Instance),
    s.pending = .read t .word :: rest → resolve t s = some (k, off) → off % 4 = 0 → s.instAt k = some j →
    ∃ v : Word,
      step s = .next (State.setInst k { j with reads := j.reads ++ [v] } { s with pending := rest }) ∧
      (off = 0x00 → v = 0) ∧
      (off = 0x04 → v = 0#14 ++ BitVec.ofBool j.eng.seq ++ BitVec.ofBool j.eng.ill ++ 0#2 ++
        BitVec.ofNat 6 j.eng.buf.length ++ 0#6 ++ j.eng.phase.code) ∧
      (off = 0x08 → v = j.eng.bitcnt.extractLsb' 32 32) ∧
      (off = 0x0C → v = j.eng.bitcnt.extractLsb' 0 32) ∧
      (∀ i : Fin 5, off = 0x10 + 4 * i.val → v =
        if j.eng.phase = .finalized then
          unbe32 j.eng.memo[4 * i.val] j.eng.memo[4 * i.val + 1] j.eng.memo[4 * i.val + 2] j.eng.memo[4 * i.val + 3]
        else 0) ∧
      (0x24 ≤ off → v = 0)

/-- The fields of STATUS (R35): PHASE in 1:0, BUF_LEN in 13:8, ILL in 16, SEQ in 17, the rest 0; code 0b11 is never read, so the
STATUS reader never faults on the machine's own STATUS (93 U11). -/
def Obligations.StatusFields : Prop :=
  ∀ e : Engine, e.buf.length ≤ 63 →
    (statusWord e).extractLsb' 0 2 = e.phase.code ∧ (statusWord e).extractLsb' 2 6 = 0 ∧
    ((statusWord e).extractLsb' 8 6).toNat = e.buf.length ∧ (statusWord e).extractLsb' 14 2 = 0 ∧
    (statusWord e).getLsbD 16 = e.ill ∧ (statusWord e).getLsbD 17 = e.seq ∧ (statusWord e).extractLsb' 18 14 = 0 ∧
    (statusWord e).extractLsb' 0 2 ≠ 0b11 ∧ phaseOfStatus (statusWord e) = .next e.phase

/-- R187: a write to any offset of the window but CMD is ignored: no state changes and no event is raised. -/
def Obligations.OtherWritesIgnored : Prop :=
  ∀ (s : State) (t : Target) (rest : List Access) (k off : Nat) (v : Word),
    s.pending = .write t .word v :: rest → resolve t s = some (k, off) → off % 4 = 0 → off ≠ 0x00 →
    s.instAt k ≠ none → step s = .next { s with pending := rest }

/-- R190: a read, or a write to anything but CMD, changes no engine state and logs no event; reading DIGEST does not finalize. -/
def Obligations.OnlyCommandsChangeEngines : Prop :=
  ∀ (s t : State) (a : Access) (rest : List Access) (k : Nat) (j : Instance), s.pending = a :: rest →
    step s = .next t → a.command s = none → (∀ n, a ≠ .hardReset n) → s.instAt k = some j →
    ∃ u, t.instAt k = some u ∧ u.eng = j.eng ∧ u.faultLog = j.faultLog

/-- R59: BITCNT_HI and BITCNT_LO read one after the other give one consistent 64-bit BITCNT. -/
def Obligations.BitCounterReadsConsistent : Prop :=
  ∀ (s : State) (rest : List Access) (k : Nat) (j : Instance),
    s.pending = readOf k .bitcntHi :: readOf k .bitcntLo :: rest → s.instAt k = some j →
    ∃ t u hi lo, runSteps 2 s = .next t ∧ t.instAt k = some u ∧ u.reads = j.reads ++ [hi, lo] ∧
      hi ++ lo = j.eng.bitcnt ∧ u.eng = j.eng ∧ t.pending = rest

/-- R236: an access changes the state of the one instance it reaches: every other instance, its logs included, stays. -/
def Obligations.InstancesShareNoState : Prop :=
  ∀ (s t : State) (a : Access) (rest : List Access) (k : Nat), s.pending = a :: rest → step s = .next t →
    a.reaches s ≠ some k → t.instAt k = s.instAt k

/-- R236, the other direction: what an access does to the instance it reaches does not depend on the other instances or on the
accesses issued after it. -/
def Obligations.InstanceLearnsNothingOfOthers : Prop :=
  ∀ (s1 s2 t1 : State) (a : Access) (rest1 rest2 : List Access) (k : Nat),
    s1.pending = a :: rest1 → s2.pending = a :: rest2 → a.reaches s1 = some k →
    (∀ t width v, a = .write t width v ∨ a = .read t width → resolve t s1 = resolve t s2) →
    s1.instAt k = s2.instAt k → step s1 = .next t1 → ∃ t2, step s2 = .next t2 ∧ t1.instAt k = t2.instAt k

/-! ### The host's functions -/

/-- R79: INGEST.BYTES of n > 0 bytes is ceil(n/3) words and of none is one; each word is a legal INGEST, and the payloads, joined, are
the bytes. -/
def Obligations.IngestBytesExpansion : Prop :=
  ∀ bytes : List Byte,
    (ingestWords bytes).length = (if bytes = [] then 1 else (bytes.length + 2) / 3) ∧
    ∃ chunks : List (List Byte), chunks.flatten = bytes ∧
      (ingestWords bytes).map decode = chunks.map fun c => Decoded.legal (.ingest c)

/-- R200: toHex gives 40 characters, two for each byte, high nibble first, each of HEX. -/
def Obligations.HexRendering : Prop :=
  ∀ d : Vector Byte 20, (toHexChars d.toList).length = 40 ∧
    ∀ i : Fin 20,
      (toHexChars d.toList)[2 * i.val]? = ("0123456789abcdef".toList)[(d[i.val].extractLsb' 4 4).toNat]? ∧
      (toHexChars d.toList)[2 * i.val + 1]? = ("0123456789abcdef".toList)[(d[i.val].extractLsb' 0 4).toNat]?

/-- R201: hashString, run on any instance in any state, completes with the hexadecimal form of the message's digest in closed form
(R167), logs no event, and leaves every other instance alone. -/
def Obligations.HashStringGivesTheDigest : Prop :=
  ∀ (s : State) (k : Nat) (j : Instance) (text : String), s.pending = [] → s.instAt k = some j →
    ∃ t u, hashString k text s = .next (t, toHex (messageDigest (Config.textEncoding text))) ∧
      t.pending = [] ∧ t.instAt k = some u ∧ u.faultLog = j.faultLog ∧ u.eng.phase = .finalized ∧
      ∀ n, n ≠ k → t.instAt n = s.instAt n

/-- R202: verify completes, and is true exactly when the candidate, its ASCII letters lowered, is the digest's hexadecimal form; a
candidate whose length is not 40 is false. -/
def Obligations.VerifyComparesDigest : Prop :=
  ∀ (s : State) (k : Nat) (j : Instance) (text candidate : String), s.pending = [] → s.instAt k = some j →
    ∃ t b, verify k text candidate s = .next (t, b) ∧
      (b = true ↔ candidate.toList.map asciiLowerChar = toHexChars (messageDigest (Config.textEncoding text)).toList) ∧
      (candidate.length ≠ 40 → b = false)
end

