-- ==== Sys2Proof/Laws/Blocks.lean ====
section
/-! SUPPORT. Compressing a byte sequence block by block (42_compression.md R122, R123): what `compressAll` does to a short
sequence, to one block, and to a concatenation. -/

namespace Sys2Proof.Machine

theorem slice_append_left (a b : List Byte) (i j : Nat) (h : j ≤ a.length) : slice (a ++ b) i j = slice a i j := by
  by_cases hij : i ≤ j
  · simp only [slice, List.drop_append, List.take_append, List.length_drop]
    have : j - i - (a.length - i) = 0 := by omega
    simp [this]
  · have : j - i = 0 := by omega
    simp [slice, this]

theorem slice_append_right (a b : List Byte) (i j n : Nat) (hn : a.length = n) :
    slice (a ++ b) (n + i) (n + j) = slice b i j := by
  subst hn
  have h : a.length + j - (a.length + i) = j - i := by omega
  simp [slice, h, List.drop_append, List.drop_eq_nil_of_le]

theorem slice_all (a : List Byte) (n : Nat) (hn : a.length = n) : slice a 0 n = a := by subst hn; simp [slice]

/-- The loop of R160 over any function of the block: the first block, then the rest. -/
theorem foldBlocks_append (f : HashState → List Byte → HashState) (h : HashState) {b : List Byte} (hb : b.length = 64)
    (r : List Byte) :
    (List.range ((b ++ r).length / 64)).foldl (fun g j => f g (slice (b ++ r) (64 * j) (64 * j + 64))) h =
      (List.range (r.length / 64)).foldl (fun g j => f g (slice r (64 * j) (64 * j + 64))) (f h b) := by
  have hlen : (b ++ r).length / 64 = r.length / 64 + 1 := by
    rw [List.length_append, hb]; omega
  have hfirst : slice (b ++ r) (64 * 0) (64 * 0 + 64) = b := by
    rw [slice_append_left b r _ _ (by omega)]; exact slice_all b 64 hb
  have hrest : ∀ j, slice (b ++ r) (64 * (j + 1)) (64 * (j + 1) + 64) = slice r (64 * j) (64 * j + 64) := by
    intro j
    have := slice_append_right b r (64 * j) (64 * j + 64) 64 hb
    rwa [show 64 + 64 * j = 64 * (j + 1) by ring, show 64 + (64 * j + 64) = 64 * (j + 1) + 64 by ring] at this
  rw [hlen, List.range_succ_eq_map, List.foldl_cons, List.foldl_map, hfirst]
  simp only [Nat.succ_eq_add_one, hrest]

/-- A sequence shorter than a block compresses nothing. -/
theorem compressAll_short (h : HashState) {s : List Byte} (hs : s.length < 64) : compressAll h s = h := by
  simp [compressAll, Nat.div_eq_of_lt hs]

/-- The first block, then the rest. -/
theorem compressAll_block_append (h : HashState) {b : List Byte} (hb : b.length = 64) (r : List Byte) :
    compressAll h (b ++ r) = compressAll (compress h b) r := foldBlocks_append compress h hb r

/-- One whole block. -/
theorem compressAll_block (h : HashState) {b : List Byte} (hb : b.length = 64) : compressAll h b = compress h b := by
  have := compressAll_block_append h hb []
  rwa [List.append_nil, compressAll_short _ (s := []) (by simp)] at this

/-- Whole blocks, then the rest (R123). -/
theorem compressAll_append (n : Nat) : ∀ (h : HashState) (a : List Byte), a.length = 64 * n → ∀ r : List Byte,
    compressAll h (a ++ r) = compressAll (compressAll h a) r := by
  induction n with
  | zero =>
    intro h a ha r
    obtain rfl : a = [] := List.length_eq_zero_iff.mp (by omega)
    rw [List.nil_append, compressAll_short h (s := []) (by simp)]
  | succ n ih =>
    intro h a ha r
    have hsplit : a = a.take 64 ++ a.drop 64 := (List.take_append_drop 64 a).symm
    have h1 : (a.take 64).length = 64 := by simp; omega
    have h2 : (a.drop 64).length = 64 * n := by simp; omega
    rw [hsplit, List.append_assoc, compressAll_block_append h h1, compressAll_block_append h h1, ih _ _ h2]

/-- The part of a sequence after its whole blocks. -/
def blockRest (s : List Byte) : List Byte := s.drop (64 * (s.length / 64))

/-- The whole blocks of a sequence, joined. -/
def blockPart (s : List Byte) : List Byte := s.take (64 * (s.length / 64))

theorem blockPart_append_rest (s : List Byte) : blockPart s ++ blockRest s = s := List.take_append_drop _ s

theorem blockPart_length (s : List Byte) : (blockPart s).length = 64 * (s.length / 64) := by
  simp only [blockPart, List.length_take]; omega

theorem blockRest_length (s : List Byte) : (blockRest s).length = s.length % 64 := by
  simp only [blockRest, List.length_drop]; omega

theorem blockRest_short {s : List Byte} (hs : s.length < 64) : blockRest s = s := by
  simp [blockRest, Nat.div_eq_of_lt hs]

/-- A sequence that goes on after s: s's whole blocks first, then what is left of s with the rest. -/
theorem compressAll_append_rest (h : HashState) (s r : List Byte) :
    compressAll h (s ++ r) = compressAll (compressAll h s) (blockRest s ++ r) := by
  have hp := blockPart_length s
  have hs : compressAll h s = compressAll h (blockPart s) := by
    conv_lhs => rw [← blockPart_append_rest s]
    rw [compressAll_append _ h _ hp, compressAll_short _ (by rw [blockRest_length]; omega)]
  conv_lhs => rw [← blockPart_append_rest s, List.append_assoc]
  rw [compressAll_append _ h _ hp, hs]

theorem drop_blocks_append (s r : List Byte) : (s ++ r).drop (64 * (s.length / 64)) = blockRest s ++ r := by
  have : 64 * (s.length / 64) - s.length = 0 := by omega
  rw [List.drop_append, this, List.drop_zero, blockRest]

theorem blockRest_append_rest (s r : List Byte) : blockRest (blockRest s ++ r) = blockRest (s ++ r) := by
  have hlen : (blockRest s ++ r).length = s.length % 64 + r.length := by rw [List.length_append, blockRest_length]
  have hall : (s ++ r).length = s.length + r.length := List.length_append
  have hd : 64 * (s.length / 64) + 64 * ((s.length % 64 + r.length) / 64) = 64 * ((s.length + r.length) / 64) := by omega
  show (blockRest s ++ r).drop (64 * ((blockRest s ++ r).length / 64)) = (s ++ r).drop (64 * ((s ++ r).length / 64))
  rw [hlen, ← drop_blocks_append, List.drop_drop, hall, hd]

end Sys2Proof.Machine
end

