-- ==== Sys2Proof/Laws/State.lean ====
section
/-! SUPPORT. The small lemmas of the state's updates and accessors: one per field per update, true by rfl. -/

namespace Sys2Proof.Machine

variable (s : State) (e : Engine) (ev : Event) (v : Word) (i : Instance) (j k : Nat)

@[simp] theorem setEngine_eng : (s.setEngine e).inst.eng = e := rfl
@[simp] theorem setEngine_reads : (s.setEngine e).inst.reads = s.inst.reads := rfl
@[simp] theorem setEngine_faultLog : (s.setEngine e).inst.faultLog = s.inst.faultLog := rfl
@[simp] theorem setEngine_others : (s.setEngine e).others = s.others := rfl
@[simp] theorem setEngine_pending : (s.setEngine e).pending = s.pending := rfl

@[simp] theorem logRead_eng : (s.logRead v).inst.eng = s.inst.eng := rfl
@[simp] theorem logRead_reads : (s.logRead v).inst.reads = s.inst.reads ++ [v] := rfl
@[simp] theorem logRead_faultLog : (s.logRead v).inst.faultLog = s.inst.faultLog := rfl
@[simp] theorem logRead_others : (s.logRead v).others = s.others := rfl
@[simp] theorem logRead_pending : (s.logRead v).pending = s.pending := rfl

@[simp] theorem raise_eng : (raise ev s).inst.eng = s.inst.eng.setSticky ev := rfl
@[simp] theorem raise_reads : (raise ev s).inst.reads = s.inst.reads := rfl
@[simp] theorem raise_faultLog : (raise ev s).inst.faultLog = s.inst.faultLog ++ [ev] := rfl
@[simp] theorem raise_others : (raise ev s).others = s.others := rfl
@[simp] theorem raise_pending : (raise ev s).pending = s.pending := rfl

/-- The effect of an event on an instance: the sticky bit and nothing else (R220, R221). -/
@[simp] theorem setSticky_h : (e.setSticky ev).h = e.h := by cases ev <;> rfl
@[simp] theorem setSticky_buf : (e.setSticky ev).buf = e.buf := by cases ev <;> rfl
@[simp] theorem setSticky_bitcnt : (e.setSticky ev).bitcnt = e.bitcnt := by cases ev <;> rfl
@[simp] theorem setSticky_phase : (e.setSticky ev).phase = e.phase := by cases ev <;> rfl
@[simp] theorem setSticky_memo : (e.setSticky ev).memo = e.memo := by cases ev <;> rfl

@[simp] theorem instAt_zero : s.instAt 0 = some s.inst := rfl
@[simp] theorem instAt_succ : s.instAt (k + 1) = s.others[k]? := rfl

@[simp] theorem setInst_pending : (s.setInst k i).pending = s.pending := by cases k <;> rfl

/-- What stands at k after k was replaced. -/
theorem instAt_setInst_same (h : s.instAt k ≠ none) : (s.setInst k i).instAt k = some i := by
  cases k with
  | zero => rfl
  | succ n =>
    have hn : n < s.others.length := by simpa using h
    simp [State.setInst, hn]

/-- Every other instance stays (R236). -/
theorem instAt_setInst_other (h : j ≠ k) : (s.setInst k i).instAt j = s.instAt j := by
  cases k with
  | zero =>
    cases j with
    | zero => exact absurd rfl h
    | succ m => rfl
  | succ n =>
    cases j with
    | zero => rfl
    | succ m =>
      have hmn : n ≠ m := fun e => h (by rw [e])
      simp [State.setInst, hmn]

/-- Putting back the instance that stands there changes nothing. -/
theorem setInst_instAt (h : s.instAt k = some i) : s.setInst k i = s := by
  cases k with
  | zero => cases h; rfl
  | succ n =>
    have hn : s.others[n]? = some i := h
    obtain ⟨hlt, hget⟩ := List.getElem?_eq_some_iff.mp hn
    simp only [State.setInst]
    rw [← hget, List.set_getElem_self]

/-- The last instance put at k is the one that stands there. -/
@[simp] theorem setInst_setInst (u v : Instance) : State.setInst k u (s.setInst k v) = s.setInst k u := by
  cases k <;> simp [State.setInst]

@[simp] theorem setInst_numInstances : (s.setInst k i).numInstances = s.numInstances := by
  cases k <;> simp [State.setInst, State.numInstances]

end Sys2Proof.Machine
end

