-- ==== Sys2Proof/Laws/Accumulator.lean ====
section
/-! SUPPORT. What `push` and a run of pushes do (43_accumulator.md R141): the one description of the accumulator that later
proofs cite. -/

namespace Sys2Proof.Machine

/-- push on a buffer that stays short of a block. -/
theorem push_short (e : Engine) (x : Byte) (h : e.buf.length ≠ 63) : e.push x = { e with buf := e.buf ++ [x] } := by
  have : (e.buf ++ [x]).length ≠ 64 := by simpa using h
  simp only [Engine.push, if_neg this]

/-- push of the byte that fills the block. -/
theorem push_full (e : Engine) (x : Byte) (h : e.buf.length = 63) :
    e.push x = { e with h := compress e.h (e.buf ++ [x]), buf := [] } := by
  have : (e.buf ++ [x]).length = 64 := by simpa using h
  simp only [Engine.push, if_pos this]

theorem pushAll_nil (e : Engine) : e.pushAll [] = e := rfl
theorem pushAll_cons (e : Engine) (x : Byte) (xs : List Byte) : e.pushAll (x :: xs) = (e.push x).pushAll xs := rfl
theorem pushAll_append (e : Engine) (xs ys : List Byte) : e.pushAll (xs ++ ys) = (e.pushAll xs).pushAll ys := by
  simp [Engine.pushAll]

/-- A run of pushes: the buffer and the new bytes together, their whole blocks compressed in order, the rest buffered. -/
theorem pushAll_eq (bytes : List Byte) : ∀ e : Engine, e.buf.length ≤ 63 →
    e.pushAll bytes = { e with h := compressAll e.h (e.buf ++ bytes), buf := blockRest (e.buf ++ bytes) } := by
  induction bytes with
  | nil =>
    intro e he
    rw [pushAll_nil, List.append_nil, compressAll_short _ (by omega), blockRest_short (by omega)]
  | cons x xs ih =>
    intro e he
    have hassoc : e.buf ++ x :: xs = (e.buf ++ [x]) ++ xs := by simp
    rw [pushAll_cons, hassoc]
    by_cases h63 : e.buf.length = 63
    · have h64 : (e.buf ++ [x]).length = 64 := by simp [h63]
      rw [push_full e x h63, ih _ (by simp)]
      have hrest : blockRest (e.buf ++ [x] ++ xs) = blockRest xs := by
        have : blockRest (e.buf ++ [x]) = [] := List.length_eq_zero_iff.mp (by rw [blockRest_length, h64])
        rw [← blockRest_append_rest, this, List.nil_append]
      simp only [List.nil_append, compressAll_block_append _ h64, hrest]
    · rw [push_short e x h63, ih _ (by simp; omega)]

/-- What a run of pushes leaves alone. -/
theorem pushAll_frame (bytes : List Byte) : ∀ e : Engine,
    (e.pushAll bytes).bitcnt = e.bitcnt ∧ (e.pushAll bytes).phase = e.phase ∧ (e.pushAll bytes).memo = e.memo ∧
      (e.pushAll bytes).ill = e.ill ∧ (e.pushAll bytes).seq = e.seq := by
  induction bytes with
  | nil => intro e; exact ⟨rfl, rfl, rfl, rfl, rfl⟩
  | cons x xs ih =>
    intro e
    have hp : (e.push x).bitcnt = e.bitcnt ∧ (e.push x).phase = e.phase ∧ (e.push x).memo = e.memo ∧
        (e.push x).ill = e.ill ∧ (e.push x).seq = e.seq := by
      unfold Engine.push
      split <;> exact ⟨rfl, rfl, rfl, rfl, rfl⟩
    obtain ⟨h1, h2, h3, h4, h5⟩ := ih (e.push x)
    rw [pushAll_cons, h1, h2, h3, h4, h5]
    exact hp

theorem pushAll_bitcnt (e : Engine) (bytes : List Byte) : (e.pushAll bytes).bitcnt = e.bitcnt := (pushAll_frame bytes e).1
theorem pushAll_phase (e : Engine) (bytes : List Byte) : (e.pushAll bytes).phase = e.phase := (pushAll_frame bytes e).2.1
theorem pushAll_memo (e : Engine) (bytes : List Byte) : (e.pushAll bytes).memo = e.memo := (pushAll_frame bytes e).2.2.1
theorem pushAll_ill (e : Engine) (bytes : List Byte) : (e.pushAll bytes).ill = e.ill := (pushAll_frame bytes e).2.2.2.1
theorem pushAll_seq (e : Engine) (bytes : List Byte) : (e.pushAll bytes).seq = e.seq := (pushAll_frame bytes e).2.2.2.2

end Sys2Proof.Machine
end

