-- ==== Sys2Proof/Laws/Fields.lean ====
section
/-! SUPPORT. The fields of a format I word (30_encoding.md R72), and how a concatenation of fields is taken apart bit by bit. -/

namespace Sys2Proof

@[simp] theorem opField_formatI (n : BitVec 2) (d0 d1 d2 : Byte) : opField (formatI n d0 d1 d2) = 2 := by
  apply BitVec.eq_of_getLsbD_eq
  intro i hi
  simp only [opField, formatI, BitVec.getLsbD_append, BitVec.getLsbD_extractLsb']
  interval_cases i <;> simp

@[simp] theorem rsvField_formatI (n : BitVec 2) (d0 d1 d2 : Byte) : rsvField (formatI n d0 d1 d2) = 0 := by
  apply BitVec.eq_of_getLsbD_eq
  intro i hi
  simp only [rsvField, formatI, BitVec.getLsbD_append, BitVec.getLsbD_extractLsb']
  interval_cases i <;> simp

@[simp] theorem countField_formatI (n : BitVec 2) (d0 d1 d2 : Byte) : countField (formatI n d0 d1 d2) = n := by
  apply BitVec.eq_of_getLsbD_eq
  intro i hi
  simp only [countField, formatI, BitVec.getLsbD_append, BitVec.getLsbD_extractLsb']
  interval_cases i <;> simp

@[simp] theorem dataField0_formatI (n : BitVec 2) (d0 d1 d2 : Byte) : dataField0 (formatI n d0 d1 d2) = d0 := by
  apply BitVec.eq_of_getLsbD_eq
  intro i hi
  simp only [dataField0, formatI, BitVec.getLsbD_append, BitVec.getLsbD_extractLsb']
  interval_cases i <;> simp

@[simp] theorem dataField1_formatI (n : BitVec 2) (d0 d1 d2 : Byte) : dataField1 (formatI n d0 d1 d2) = d1 := by
  apply BitVec.eq_of_getLsbD_eq
  intro i hi
  simp only [dataField1, formatI, BitVec.getLsbD_append, BitVec.getLsbD_extractLsb']
  interval_cases i <;> simp

@[simp] theorem dataField2_formatI (n : BitVec 2) (d0 d1 d2 : Byte) : dataField2 (formatI n d0 d1 d2) = d2 := by
  apply BitVec.eq_of_getLsbD_eq
  intro i hi
  simp only [dataField2, formatI, BitVec.getLsbD_append, BitVec.getLsbD_extractLsb']
  interval_cases i <;> simp

/-- A word is its six fields of R72. -/
theorem word_eq_fields (w : Word) :
    w = opField w ++ rsvField w ++ countField w ++ dataField0 w ++ dataField1 w ++ dataField2 w := by
  apply BitVec.eq_of_getLsbD_eq
  intro i hi
  simp only [opField, rsvField, countField, dataField0, dataField1, dataField2, BitVec.getLsbD_append,
    BitVec.getLsbD_extractLsb']
  interval_cases i <;> simp

/-- A word whose OP is 0x2 and whose RSV is 0 is the format I word of its own fields. -/
theorem word_eq_formatI (w : Word) (hop : opField w = 2) (hrsv : rsvField w = 0) :
    w = formatI (countField w) (dataField0 w) (dataField1 w) (dataField2 w) := by
  conv_lhs => rw [word_eq_fields w, hop, hrsv]
  rfl

/-- A word is its OP and its bits 27:0 (R71). -/
theorem word_eq_op_zero (w : Word) : w = opField w ++ zeroField w := by
  apply BitVec.eq_of_getLsbD_eq
  intro i hi
  simp only [opField, zeroField, BitVec.getLsbD_append, BitVec.getLsbD_extractLsb']
  interval_cases i <;> simp

/-- A word of OP 0x2 decodes by the format I arm of R74. -/
theorem decode_formatI (n : BitVec 2) (d0 d1 d2 : Byte) :
    decode (formatI n d0 d1 d2) = decodeIngest (formatI n d0 d1 d2) := by
  rw [decode, opField_formatI]
  rfl

/-- The 16 opcodes by the cases of R75. -/
theorem opField_cases (w : Word) :
    opField w = 1 ∨ opField w = 2 ∨ opField w = 3 ∨ opField w = 0 ∨ 4 ≤ opField w := by
  generalize opField w = c
  revert c
  decide

/-- N is 0, 1, 2 or 3. -/
theorem countField_cases (w : Word) : countField w = 0 ∨ countField w = 1 ∨ countField w = 2 ∨ countField w = 3 := by
  generalize countField w = c
  revert c
  decide

end Sys2Proof
end

