-- ==== Sys2Proof/Laws/Finalizer.lean ====
section
/-! SUPPORT. What padding and the padding FSM's pushes are (44_finalizer.md R161, R162, R165). -/

namespace Sys2Proof.Machine

@[simp] theorem be32_length (x : Word) : (be32 x).length = 4 := rfl
@[simp] theorem be64_length (n : Word64) : (be64 n).length = 8 := rfl

theorem padZeros_short {len : Nat} (h : len ≤ 55) : padZeros len = 55 - len := by unfold padZeros; omega
theorem padZeros_long {len : Nat} (h : 56 ≤ len) (h' : len ≤ 63) : padZeros len = 119 - len := by unfold padZeros; omega
theorem padZeros_mod (len : Nat) : (len + 1 + padZeros len) % 64 = 56 := by unfold padZeros; omega
theorem padZeros_lt (len : Nat) : padZeros len < 64 := by unfold padZeros; omega

/-- Padding depends on the length mod 64 alone. -/
theorem padZeros_add_blocks (q r : Nat) : padZeros (64 * q + r) = padZeros r := by unfold padZeros; omega

theorem pad_length (buf : List Byte) (n : Word64) : (pad buf n).length = buf.length + 1 + padZeros buf.length + 8 := by
  simp only [pad, List.length_append, List.length_cons, List.length_nil, List.length_replicate, be64_length]

/-- pad fills whole blocks. -/
theorem pad_length_mod (buf : List Byte) (n : Word64) : (pad buf n).length % 64 = 0 := by
  rw [pad_length]
  have := padZeros_mod buf.length
  omega

/-- One block up to 55 bytes, two from 56 to 63 (R162). -/
theorem pad_blocks {buf : List Byte} (h : buf.length ≤ 63) (n : Word64) :
    (pad buf n).length / 64 = if buf.length ≤ 55 then 1 else 2 := by
  rw [pad_length]
  split
  · rename_i h55
    rw [padZeros_short h55]; omega
  · rw [padZeros_long (by omega) h]; omega

/-- The whole padded sequence as a suffix pushed after the buffer. -/
def padSuffix (len : Nat) (n : Word64) : List Byte := [0x80] ++ List.replicate (padZeros len) 0x00 ++ be64 n

theorem pad_eq_append (buf : List Byte) (n : Word64) : pad buf n = buf ++ padSuffix buf.length n := by
  simp [pad, padSuffix]

theorem finalize_of_finalized {e : Engine} (h : e.phase = .finalized) : e.finalize = e := if_pos h
theorem finalize_of_open {e : Engine} (h : e.phase ≠ .finalized) : e.finalize = e.finalizeNow := if_neg h

/-- Pushing the padding compresses exactly the blocks of pad and leaves an empty buffer. -/
theorem pushAll_padSuffix (e : Engine) (h : e.buf.length ≤ 63) (n : Word64) :
    e.pushAll (padSuffix e.buf.length n) = { e with h := compressAll e.h (pad e.buf n), buf := [] } := by
  have hrest : blockRest (e.buf ++ padSuffix e.buf.length n) = [] := by
    rw [← pad_eq_append]
    exact List.length_eq_zero_iff.mp (by rw [blockRest_length, pad_length_mod])
  rw [pushAll_eq _ e h, hrest, ← pad_eq_append]

end Sys2Proof.Machine
end

