-- ==== Sys2Proof/Laws/PerInstr.lean ====
section
/-! SUPPORT. Statements made for every instruction as syntax, one lemma per constructor (LAWS.json). -/

namespace Sys2Proof.Laws.TableRow

/-- A command's word matches its own row of opcode_table.json: the row's match under the row's mask. -/
def Statement (i : Instr) : Prop := encode i &&& i.tableMask = i.tableMatch

theorem reset : Statement .reset := by unfold Statement; decide

theorem ingest (bytes : List Byte) : Statement (.ingest bytes) := by
  unfold Statement
  simp only [encode, Instr.tableMask, Instr.tableMatch, formatI]
  apply BitVec.eq_of_getLsbD_eq
  intro i hi
  simp only [BitVec.getLsbD_and, BitVec.getLsbD_append]
  interval_cases i <;> simp

theorem finalize : Statement .finalize := by unfold Statement; decide

end Sys2Proof.Laws.TableRow
end

