-- ==== Sys2Proof/Laws/Port.lean ====
section
/-! SUPPORT. What a command does to the instance it runs on, and what a step can do: one inversion lemma (`step_next`) that later
proofs cite instead of unfolding the host port. -/

namespace Sys2Proof.Machine

/-- The instance after a command (R180, R140, R143, R160). -/
def instExec (i : Instr) (j : Instance) : Instance :=
  match i with
  | .reset => { j with eng := j.eng.reset }
  | .ingest bytes =>
    if j.eng.phase = .finalized then
      { j with eng := { j.eng with seq := true }, faultLog := j.faultLog ++ [.sequenceError (encode (.ingest bytes))] }
    else { j with eng := j.eng.ingest bytes }
  | .finalize => { j with eng := j.eng.finalize }

/-- Every command completes, and touches the instance it runs on alone. -/
theorem exec_eq (i : Instr) (s : State) : exec i s = .next { s with inst := instExec i s.inst } := by
  cases i with
  | reset => rfl
  | ingest bytes =>
    simp only [exec, execIngest, instExec]
    split <;> rfl
  | finalize => rfl

/-- The instance after a word is written to its CMD register (R181). -/
def wordEffect (w : Word) (j : Instance) : Instance :=
  match decode w with
  | .legal i => instExec i j
  | .illegal _ => { j with eng := { j.eng with ill := true }, faultLog := j.faultLog ++ [.illegalCommand w] }

theorem dispatchWord_eq (w : Word) (s : State) : dispatchWord w s = .next { s with inst := wordEffect w s.inst } := by
  unfold dispatchWord wordEffect
  cases decode w with
  | legal i => exact exec_eq i s
  | illegal r => rfl

theorem wordEffect_legal {w : Word} {i : Instr} (h : decode w = .legal i) (j : Instance) : wordEffect w j = instExec i j := by
  simp only [wordEffect, h]

theorem wordEffect_illegal {w : Word} {r : IllegalReason} (h : decode w = .illegal r) (j : Instance) :
    wordEffect w j = { j with eng := { j.eng with ill := true }, faultLog := j.faultLog ++ [.illegalCommand w] } := by
  simp only [wordEffect, h]

/-- The instance after an access that is performed on it: a command word, a hardware reset, a read, or an ignored write. -/
def accessEffect (a : Access) (s : State) (j : Instance) : Instance :=
  match a with
  | .write t _ v =>
    match resolve t s with
    | some (_, 0) => wordEffect v j
    | _ => j
  | .read t _ =>
    match resolve t s with
    | some (_, off) => { j with reads := j.reads ++ [regRead off j.eng] }
    | none => j
  | .hardReset _ => { j with eng := .powerOn }

/-- An operation that answers next on instance k, put back in its place. -/
theorem onInstance_next {k : Nat} {s : State} {j : Instance} (f : State → Host.Outcome State Fault Refusal)
    (g : Instance → Instance) (hf : ∀ u, f u = .next { u with inst := g u.inst }) (hk : s.instAt k = some j) :
    onInstance k f s = .next (s.setInst k (g j)) := by
  simp only [onInstance, hk, hf]

theorem onInstance_none {k : Nat} {s : State} (f : State → Host.Outcome State Fault Refusal) (hk : s.instAt k = none) :
    onInstance k f s = .refused (.noSuchInstance k) := by
  simp only [onInstance, hk]

theorem regWrite_eq (off : Nat) (v : Word) (s : State) :
    regWrite off v s = .next { s with inst := if off = 0 then wordEffect v s.inst else s.inst } := by
  unfold regWrite
  split
  · rw [dispatchWord_eq]
  · rfl

theorem readReg_eq (off : Nat) (s : State) :
    readReg off s = .next { s with inst := { s.inst with reads := s.inst.reads ++ [regRead off s.inst.eng] } } := rfl

theorem hardReset_eq (s : State) : hardReset s = .next { s with inst := { s.inst with eng := .powerOn } } := rfl

theorem accessProblem_word {off : Nat} (h : off % 4 = 0) : accessProblem off .word = none := by simp [accessProblem, h]

theorem accessProblem_none {off : Nat} {width : Width} (h : accessProblem off width = none) :
    off % 4 = 0 ∧ width = .word := by
  unfold accessProblem at h
  split at h
  · exact absurd h (by simp)
  · cases width <;> simp_all

theorem atTarget_ok {t : Target} {s : State} {k off : Nat} (f : Nat → State → Host.Outcome State Fault Refusal)
    (ht : resolve t s = some (k, off)) (ho : off % 4 = 0) : atTarget t .word f s = onInstance k (f off) s := by
  simp only [atTarget, ht, accessProblem_word ho]

/-- Resolving a target reads the platform alone, never what is pending. -/
@[simp] theorem resolve_pending (t : Target) (s : State) (rest : List Access) :
    resolve t { s with pending := rest } = resolve t s := rfl

@[simp] theorem instAt_pending (s : State) (rest : List Access) (k : Nat) :
    State.instAt { s with pending := rest } k = s.instAt k := by cases k <;> rfl

theorem step_nil {s : State} (h : s.pending = []) : step s = .next s := by simp only [step, performNext, h]

theorem step_cons {s : State} {a : Access} {rest : List Access} (h : s.pending = a :: rest) :
    step s = perform a { s with pending := rest } := by simp only [step, performNext, h]

/-- A performed write: the next state. -/
theorem step_write {s : State} {t : Target} {v : Word} {rest : List Access} {k off : Nat} {j : Instance}
    (hp : s.pending = .write t .word v :: rest) (ht : resolve t s = some (k, off)) (ho : off % 4 = 0)
    (hk : s.instAt k = some j) :
    step s = .next (State.setInst k (if off = 0 then wordEffect v j else j) { s with pending := rest }) := by
  rw [step_cons hp, perform, atTarget_ok _ (by simpa using ht) ho]
  exact onInstance_next _ (fun i => if off = 0 then wordEffect v i else i) (regWrite_eq off v) (by simpa using hk)

/-- A performed read: the next state. -/
theorem step_read {s : State} {t : Target} {rest : List Access} {k off : Nat} {j : Instance}
    (hp : s.pending = .read t .word :: rest) (ht : resolve t s = some (k, off)) (ho : off % 4 = 0)
    (hk : s.instAt k = some j) :
    step s = .next (State.setInst k { j with reads := j.reads ++ [regRead off j.eng] } { s with pending := rest }) := by
  rw [step_cons hp, perform, atTarget_ok _ (by simpa using ht) ho]
  exact onInstance_next _ (fun i => { i with reads := i.reads ++ [regRead off i.eng] }) (readReg_eq off) (by simpa using hk)

/-- A hardware reset: the next state. -/
theorem step_hardReset {s : State} {rest : List Access} {k : Nat} {j : Instance}
    (hp : s.pending = .hardReset k :: rest) (hk : s.instAt k = some j) :
    step s = .next (State.setInst k { j with eng := .powerOn } { s with pending := rest }) := by
  rw [step_cons hp, perform]
  exact onInstance_next _ (fun i => { i with eng := .powerOn }) hardReset_eq (by simpa using hk)

/-- An access that names a CMD register is an aligned 32-bit write at offset 0 of an instance's window. -/
theorem command_eq_some {a : Access} {s : State} {k : Nat} {w : Word} (h : a.command s = some (k, w)) :
    ∃ t, a = .write t .word w ∧ resolve t s = some (k, 0) := by
  cases a with
  | write t width v =>
    cases width <;> simp only [Access.command] at h <;> try contradiction
    split at h
    · rename_i n hr
      simp only [Option.some.injEq, Prod.mk.injEq] at h
      obtain ⟨rfl, rfl⟩ := h
      exact ⟨t, rfl, hr⟩
    · contradiction
  | read t width => simp only [Access.command] at h; contradiction
  | hardReset n => simp only [Access.command] at h; contradiction

/-- A command word written: the next state. -/
theorem step_command {s : State} {a : Access} {rest : List Access} {k : Nat} {w : Word} {j : Instance}
    (hp : s.pending = a :: rest) (hc : a.command s = some (k, w)) (hk : s.instAt k = some j) :
    step s = .next (State.setInst k (wordEffect w j) { s with pending := rest }) := by
  obtain ⟨t, rfl, ht⟩ := command_eq_some hc
  exact step_write hp ht rfl hk

/-- WHAT A STEP CAN DO when an access is pending and it answers a next state: the access reaches an instance that is there, is
aligned and 32 bits wide, and changes that instance alone, by `accessEffect`. -/
theorem step_next {s t : State} {a : Access} {rest : List Access} (hp : s.pending = a :: rest) (h : step s = .next t) :
    ∃ k j, a.reaches s = some k ∧ s.instAt k = some j ∧
      t = State.setInst k (accessEffect a s j) { s with pending := rest } ∧
      (∀ tg width v, a = .write tg width v ∨ a = .read tg width →
        width = .word ∧ ∃ off, resolve tg s = some (k, off) ∧ off % 4 = 0) := by
  have key : ∀ tg width (f : Nat → State → Host.Outcome State Fault Refusal),
      atTarget tg width f { s with pending := rest } = .next t →
      ∃ k off j, resolve tg s = some (k, off) ∧ off % 4 = 0 ∧ width = .word ∧ s.instAt k = some j := by
    intro tg width f hf
    simp only [atTarget, resolve_pending] at hf
    split at hf
    · contradiction
    · rename_i k off hr
      split at hf
      · contradiction
      · rename_i ha
        obtain ⟨ho, hw⟩ := accessProblem_none ha
        cases hi : s.instAt k with
        | none => rw [onInstance_none _ (by simpa using hi)] at hf; contradiction
        | some j => exact ⟨k, off, j, hr, ho, hw, hi⟩
  have hs := step_cons hp
  cases a with
  | write tg width v =>
    rw [h] at hs
    obtain ⟨k, off, j, hr, ho, rfl, hk⟩ := key tg width _ hs.symm
    have hn := step_write hp hr ho hk
    rw [h] at hn
    refine ⟨k, j, by simp [Access.reaches, hr], hk, ?_, ?_⟩
    · rw [Host.Outcome.next.inj hn]
      congr 1
      simp only [accessEffect, hr]
      by_cases h0 : off = 0
      · subst h0; rfl
      · rw [if_neg h0]
        split
        · rename_i heq; cases heq; exact absurd rfl h0
        · rfl
    · rintro tg' width' v' (h' | h')
      · cases h'; exact ⟨rfl, off, hr, ho⟩
      · cases h'
  | read tg width =>
    rw [h] at hs
    obtain ⟨k, off, j, hr, ho, rfl, hk⟩ := key tg width _ hs.symm
    have hn := step_read hp hr ho hk
    rw [h] at hn
    refine ⟨k, j, by simp [Access.reaches, hr], hk, ?_, ?_⟩
    · rw [Host.Outcome.next.inj hn]
      simp only [accessEffect, hr]
    · rintro tg' width' v' (h' | h')
      · cases h'
      · cases h'; exact ⟨rfl, off, hr, ho⟩
  | hardReset k =>
    cases hi : s.instAt k with
    | none =>
      rw [perform, onInstance_none _ (by simpa using hi), h] at hs
      contradiction
    | some j =>
      have hn := step_hardReset hp hi
      rw [h] at hn
      refine ⟨k, j, rfl, hi, Host.Outcome.next.inj hn, ?_⟩
      rintro tg' width' v' (h' | h') <;> cases h'

/-- The window at base b is b to b + 0x3F (R51). -/
theorem inWindow_iff (b a : Nat) : inWindow b a = true ↔ b ≤ a ∧ a ≤ b + 0x3F := by
  rw [inWindow, Bool.and_eq_true, decide_eq_true_eq, decide_eq_true_eq, windowBytes]
  omega

end Sys2Proof.Machine
end

