-- ==== Sys2Proof/Laws/Runs.lean ====
section
/-! SUPPORT. Runs of a host program on one instance: what a sequence of aligned 32-bit accesses to instance k's window leaves
(20_memory.md R55). -/

namespace Sys2Proof.Machine

/-- One line of a host program on an instance: a word written at an offset, or a register read. -/
inductive PortOp where
  | write (off : Nat) (v : Word)
  | read (off : Nat)

/-- The access to instance k. -/
def PortOp.access (k : Nat) : PortOp → Access
  | .write off v => .write (.window k off) .word v
  | .read off => .read (.window k off) .word

/-- The byte offset of the operation. -/
def PortOp.off : PortOp → Nat
  | .write off _ => off
  | .read off => off

/-- What the operation does to the instance. -/
def PortOp.effect (p : PortOp) (j : Instance) : Instance :=
  match p with
  | .write off v => if off = 0 then wordEffect v j else j
  | .read off => { j with reads := j.reads ++ [regRead off j.eng] }

theorem resolve_window {k off : Nat} (h : off < 64) (s : State) : resolve (.window k off) s = some (k, off) := by
  simp [resolve, windowBytes, h]

theorem step_portOp {s : State} {k : Nat} {j : Instance} {p : PortOp} {rest : List Access}
    (hp : s.pending = p.access k :: rest) (ho : p.off < 64) (ha : p.off % 4 = 0) (hk : s.instAt k = some j) :
    step s = .next (State.setInst k (p.effect j) { s with pending := rest }) := by
  cases p with
  | write off v => exact step_write hp (resolve_window ho s) ha hk
  | read off => exact step_read hp (resolve_window ho s) ha hk

/-- A whole program on instance k, in order: the instance is what the operations make of it one after another, every other
instance stays, and what was pending after it is pending still. -/
theorem runSteps_portOps (k : Nat) (rest : List Access) (ops : List PortOp) :
    ∀ (s : State) (j : Instance), (∀ p ∈ ops, p.off < 64 ∧ p.off % 4 = 0) → s.instAt k = some j →
      s.pending = ops.map (PortOp.access k) ++ rest →
      runSteps ops.length s = .next (State.setInst k (ops.foldl (fun i p => p.effect i) j) { s with pending := rest }) := by
  induction ops with
  | nil =>
    intro s j _ hk hp
    have hs : { s with pending := rest } = s := by rw [← show s.pending = rest from hp]
    simp only [List.length_nil, runSteps, List.foldl_nil]
    rw [hs, setInst_instAt s j k hk]
  | cons p ops ih =>
    intro s j hall hk hp
    obtain ⟨ho, ha⟩ := hall p (by simp)
    have hstep := step_portOp (s := s) (rest := ops.map (PortOp.access k) ++ rest) (by simpa using hp) ho ha hk
    have hk' : (State.setInst k (p.effect j) { s with pending := ops.map (PortOp.access k) ++ rest }).instAt k =
        some (p.effect j) := instAt_setInst_same _ _ _ (by simp [hk])
    have hrun := ih _ (p.effect j) (fun q hq => hall q (by simp [hq])) hk' (by simp)
    simp only [List.length_cons, runSteps, hstep, hrun, List.foldl_cons]
    congr 1
    cases k <;> simp [State.setInst]

end Sys2Proof.Machine
end

