-- ==== Sys2Proof/Laws/Schedule.lean ====
section
/-! SUPPORT. The schedule loop (41_schedule_expander.md R110) and the round loops (42_compression.md R122) as folds over an
index. -/

namespace Sys2Proof.Machine

/-- `words16` takes four bytes to a word. -/
theorem words16_length : ∀ (n : Nat) (b : List Byte), b.length = 4 * n → (words16 b).length = n := by
  intro n
  induction n with
  | zero =>
    intro b h
    obtain rfl : b = [] := List.length_eq_zero_iff.mp (by omega)
    rfl
  | succ n ih =>
    intro b h
    match b, h with
    | _ :: _ :: _ :: _ :: r, h =>
      have hr : r.length = 4 * n := by simp only [List.length_cons] at h; omega
      simp only [words16, List.length_cons, ih r hr]
    | [], h => simp only [List.length_nil] at h; omega
    | [_], h => simp only [List.length_cons, List.length_nil] at h; omega
    | [_, _], h => simp only [List.length_cons, List.length_nil] at h; omega
    | [_, _, _], h => simp only [List.length_cons, List.length_nil] at h; omega

theorem expandSchedule_length (n : Nat) : ∀ w, (expandSchedule n w).length = w.length + n := by
  induction n with
  | zero => intro w; rfl
  | succ n ih =>
    intro w
    simp only [expandSchedule, ih, List.length_append, List.length_cons, List.length_nil]
    omega

/-- Words already produced stay. -/
theorem expandSchedule_old (n : Nat) : ∀ w t, t < w.length → (expandSchedule n w)[t]? = w[t]? := by
  induction n with
  | zero => intro w t _; rfl
  | succ n ih =>
    intro w t h
    simp only [expandSchedule]
    rw [ih _ _ (by simp only [List.length_append]; omega), List.getElem?_append_left h]

theorem expandSchedule_add (n m : Nat) : ∀ w, expandSchedule (n + m) w = expandSchedule m (expandSchedule n w) := by
  induction n with
  | zero => intro w; simp [expandSchedule]
  | succ n ih => intro w; rw [Nat.succ_add]; simp only [expandSchedule, ih]

/-- The round loop over a list of schedule words is the loop over the index t. -/
theorem rounds_eq_fold (ws : List Word) : ∀ (t : Nat) (v : HashState),
    rounds t ws v = (List.range ws.length).foldl (fun x i => shaRound (t + i) x (ws.getD i 0)) v := by
  induction ws with
  | nil => intro t v; rfl
  | cons w ws ih =>
    intro t v
    simp only [rounds, List.length_cons, List.range_succ_eq_map, List.foldl_cons, List.foldl_map, ih]
    simp [Nat.add_assoc, Nat.add_comm 1]

/-- The on-the-fly round loop is the loop over the index t, its word the oldest of the window shifted t times. -/
theorem windowRounds_eq_fold (n : Nat) : ∀ (t : Nat) (win : List Word) (v : HashState),
    windowRounds n t win v =
      (List.range n).foldl (fun x i => shaRound (t + i) x (scheduleWord (windowShift^[i] win) 0)) v := by
  induction n with
  | zero => intro t win v; rfl
  | succ n ih =>
    intro t win v
    simp only [windowRounds, List.range_succ_eq_map, List.foldl_cons, List.foldl_map, ih]
    simp [Nat.add_assoc, Nat.add_comm 1]

end Sys2Proof.Machine
end

