-- ==== Sys2Proof/Machine/AsmText.lean ====
section
/-! DEFINITION. Reading a host program's text: one operation per line, `;` starting a comment (30_encoding.md R78, R79). The text
of a line is the list of its characters. Log entry 15. -/

namespace Sys2Proof.Machine

/-- The pieces of a line: a word (mnemonic, register or number), a comma, a byte written 'c', a text between double quotes. -/
inductive AsmToken where
  | word (cs : List Char)
  | comma
  | charByte (b : Byte)
  | text (cs : List Char)
  deriving DecidableEq, Repr

/-- What is being read: a word, or a text, with its characters so far. -/
inductive AsmMode where
  | word (cs : List Char)
  | text (cs : List Char)
  deriving DecidableEq, Repr

/-- The word read so far, if there is one, ends here. -/
def endWord (cs : List Char) (rest : List AsmToken) : List AsmToken := if cs = [] then rest else .word cs :: rest

/-- The pieces of one line. `'c'` is the ASCII code of c (R78), so c is ASCII. -/
def lexLine : AsmMode → List Char → Option (List AsmToken)
  | .word w, [] => some (endWord w [])
  | .text _, [] => none
  | .text w, c :: rest =>
    if c = '"' then (lexLine (.word []) rest).map (.text w :: ·) else lexLine (.text (w ++ [c])) rest
  | .word w, '\'' :: c :: '\'' :: rest =>
    if w = [] ∧ c.toNat < 128 then (lexLine (.word []) rest).map (.charByte (BitVec.ofNat 8 c.toNat) :: ·) else none
  | .word w, c :: rest =>
    if c = ';' then some (endWord w [])
    else if c = ' ' ∨ c = '\t' ∨ c = '\r' then (lexLine (.word []) rest).map (endWord w)
    else if c = ',' then (lexLine (.word []) rest).map fun ts => endWord w (.comma :: ts)
    else if c = '\'' then none
    else if c = '"' then (if w = [] then lexLine (.text []) rest else none)
    else lexLine (.word (w ++ [c])) rest

/-- The value of a digit of a decimal or hexadecimal number. -/
def digitValue (c : Char) : Option Nat :=
  if '0' ≤ c ∧ c ≤ '9' then some (c.toNat - 48)
  else if 'a' ≤ c ∧ c ≤ 'f' then some (c.toNat - 87)
  else if 'A' ≤ c ∧ c ≤ 'F' then some (c.toNat - 55)
  else none

/-- The digits of a number in a base, after the value so far. -/
def readDigits (base : Nat) : Nat → List Char → Option Nat
  | n, [] => some n
  | n, c :: rest =>
    match digitValue c with
    | some d => if d < base then readDigits base (base * n + d) rest else none
    | none => none

/-- A number, decimal or `0x` hexadecimal: the forms R78 gives for a byte operand. That the offset and immediate of WRITE and a
numeric operand of READ have them too is a DESIGN CHOICE (log entry 15). -/
def readNumber : List Char → Option Nat
  | [] => none
  | '0' :: 'x' :: ds => if ds = [] then none else readDigits 16 0 ds
  | ds => readDigits 10 0 ds

/-- A byte operand: "a number 0..255, written decimal, `0x` hexadecimal or `'c'`" (R78). -/
def readByte : AsmToken → Option Byte
  | .charByte b => some b
  | .word cs =>
    match readNumber cs with
    | some n => if n < 256 then some (BitVec.ofNat 8 n) else none
    | none => none
  | .comma => none
  | .text _ => none

/-- Byte operands separated by commas; no operand at all is the empty list. -/
def readBytes : List AsmToken → Option (List Byte)
  | [] => some []
  | [t] => (readByte t).map fun b => [b]
  | t :: .comma :: u :: rest =>
    match readByte t, readBytes (u :: rest) with
    | some b, some bs => some (b :: bs)
    | _, _ => none
  | _ => none

/-- A register by its name in R34, or its offset as a number. DESIGN CHOICE (log entry 15): R78 gives no form for the number; it is
read as `readNumber` reads it, whatever its size. -/
def readRegName (cs : List Char) : Option RegName :=
  if cs = "CMD".toList then some .cmd
  else if cs = "STATUS".toList then some .status
  else if cs = "BITCNT_HI".toList then some .bitcntHi
  else if cs = "BITCNT_LO".toList then some .bitcntLo
  else if cs = "DIGEST0".toList then some (.digest 0)
  else if cs = "DIGEST1".toList then some (.digest 1)
  else if cs = "DIGEST2".toList then some (.digest 2)
  else if cs = "DIGEST3".toList then some (.digest 3)
  else if cs = "DIGEST4".toList then some (.digest 4)
  else (readNumber cs).map .offset

/-- The operands of `WRITE off, imm32` (R78). DESIGN CHOICE (log entry 15): R78 gives no form for these two numbers; both are read
as `readNumber` reads them, and an immediate of 2^32 or more is no line. -/
def readWrite (off imm : List Char) : Option AsmLine :=
  match readNumber off, readNumber imm with
  | some o, some v => if v < 2 ^ 32 then some (.write o (BitVec.ofNat 32 v)) else none
  | _, _ => none

/-- A mnemonic of R78 or R79 with its operands. An INGEST has at most three. -/
def readOperation (mnemonic : List Char) (operands : List AsmToken) : Option AsmLine :=
  if mnemonic = "RESET".toList then (if operands = [] then some .reset else none)
  else if mnemonic = "FINALIZE".toList then (if operands = [] then some .finalize else none)
  else if mnemonic = "INGEST".toList then
    match readBytes operands with
    | some bs => if bs.length ≤ ingestMaxBytes then some (.ingest bs) else none
    | none => none
  else if mnemonic = "INGEST.BYTES".toList then (readBytes operands).map .ingestBytes
  else if mnemonic = "INGEST.STR".toList then
    match operands with
    | [.text cs] => some (.ingestStr (String.ofList cs))
    | _ => none
  else if mnemonic = "HASH.STR".toList then
    match operands with
    | [.text cs] => some (.hashStr (String.ofList cs))
    | _ => none
  else if mnemonic = "WRITE".toList then
    match operands with
    | [.word off, .comma, .word imm] => readWrite off imm
    | _ => none
  else if mnemonic = "READ".toList then
    match operands with
    | [.word r] => (readRegName r).map .read
    | _ => none
  else none

/-- One line: no operation, or one. None where it is no line of R78 or R79. -/
def readLine (cs : List Char) : Option (List AsmLine) :=
  match lexLine (.word []) cs with
  | some [] => some []
  | some (.word m :: operands) => (readOperation m operands).map fun l => [l]
  | _ => none

/-- The lines of a text. -/
def splitLines : List Char → List (List Char)
  | [] => [[]]
  | c :: rest =>
    if c = '\n' then [] :: splitLines rest
    else match splitLines rest with
      | [] => [[c]]
      | l :: ls => (c :: l) :: ls

/-- The operations of the lines of a program, none if a line is no line of R78 or R79. -/
def readLines : List (List Char) → Option (List AsmLine)
  | [] => some []
  | l :: rest =>
    match readLine l, readLines rest with
    | some ops, some more => some (ops ++ more)
    | _, _ => none

/-- A host program's text (R78). -/
def readProgram (text : List Char) : Option (List AsmLine) := readLines (splitLines text)

end Sys2Proof.Machine
end

