-- ==== Sys2Proof/Tests/Slice0.lean ====
section
/-! SUPPORT. Tests: the smoke test of WellFormed, command words written out from the spec's encodings, the spec's own vectors
(95_test_vectors.md) on single operations and single steps, and a witness for the hypotheses of each obligation that has some. -/

namespace Sys2Proof.Tests

open Sys2Proof.Machine

/-! ### Small states -/

/-- An instance in a given phase with a given buffer. -/
def engineOf (phase : Phase) (buf : List Byte) (bitcnt : Word64) : Engine :=
  { Engine.powerOn with phase := phase, buf := buf, bitcnt := bitcnt }

/-- An instance with an empty history of reads and events. -/
def instanceOf (e : Engine) : Instance := { eng := e, reads := [], faultLog := [] }

/-- A platform of two instances with one access pending. -/
def stateOf (e : Engine) (a : List Access) : State :=
  { inst := instanceOf e, others := [Instance.powerOn], pending := a }

/-- n bytes 'a'. -/
def letters (n : Nat) : List Byte := List.replicate n 0x61

/-- The state after a step, for a look at some of its fields. -/
def nextOf (o : Host.Outcome State Fault Refusal) : Option State :=
  match o with
  | .next t => some t
  | .fault _ => none
  | .refused _ => none

/-- A register of instance 0 as read after a step. -/
def readAfter (o : Host.Outcome State Fault Refusal) (off : Nat) : Option Word :=
  (nextOf o).map fun t => regRead off t.inst.eng

/-! ### WellFormed and decoding -/

/-- R72: N is 0..3, so a payload of four bytes is no command. -/
theorem test_wellFormed_refuses_four_bytes : (Instr.ingest [1, 2, 3, 4]).wellFormed = false := by decide

theorem test_wellFormed_allows : (Instr.ingest [1, 2, 3]).wellFormed = true ∧ Instr.reset.wellFormed = true := by decide

/-- R71: OP = 0001, ZERO = 28 zero bits. -/
theorem test_decode_reset : decode 0b00010000000000000000000000000000 = .legal .reset := by decide

/-- R72: OP = 0010, RSV = 00, N = 10, D0 = 01100010, D1 = 01100011, D2 = 00000000 (V-45-1: INGEST [62, 63]). -/
theorem test_decode_ingest : decode 0b00100010011000100110001100000000 = .legal (.ingest [0x62, 0x63]) := by decide

/-- R71: OP = 0011, ZERO = 28 zero bits. -/
theorem test_decode_finalize : decode 0b00110000000000000000000000000000 = .legal .finalize := by decide

/-- The host's own form of the question, and a word run as the first instruction after reset. -/
theorem test_table_word_runs :
    decodeTableWord 32 0x23616263 = some (.ingest [0x61, 0x62, 0x63]) ∧
      readAfter (step (State.reset.withFetchWord 32 0x23616263)) 0x04 = some 0x00000301 := by decide

/-! ### Commands, one step each -/

/-- V-45-4: RESET after errors clears STATUS 00030002. -/
theorem test_reset_clears_errors :
    readAfter (exec .reset (stateOf { engineOf .finalized [] 0 with ill := true, seq := true } [])) 0x04 = some 0 := by decide

/-- V-43-3, row L = 62: the block fills inside the word, and the last byte starts the next one. -/
theorem test_ingest_crosses_block :
    readAfter (exec (.ingest [0x62, 0x62, 0x62]) (stateOf (engineOf .accumulating (letters 62) 496) [])) 0x04 =
        some 0x00000101 ∧
      readAfter (exec (.ingest [0x62, 0x62, 0x62]) (stateOf (engineOf .accumulating (letters 62) 496) [])) 0x0C =
        some 520 := by decide

/-- V-43-4: BITCNT = 2^64 - 8 wraps to 0 silently, and the 64th byte empties the buffer. -/
theorem test_ingest_wraps_counter :
    (nextOf (exec (.ingest [0x61]) (stateOf (engineOf .accumulating (letters 63) (0 - 8)) []))).map
        (fun t => (t.inst.eng.bitcnt, t.inst.eng.buf, statusWord t.inst.eng)) = some (0, [], 0x00000001) := by decide

/-- V-L1-1: the empty message. -/
theorem test_finalize_empty :
    (nextOf (exec .finalize (stateOf Engine.powerOn []))).map (fun t => (List.range 5).map fun k =>
        regRead (0x10 + 4 * k) t.inst.eng) =
      some [0xda39a3ee, 0x5e6b4b0d, 0x3255bfef, 0x95601890, 0xafd80709] := by decide +kernel

/-- V-44-2, n = 56: two padding blocks. -/
theorem test_finalize_two_blocks :
    (nextOf (exec .finalize (stateOf (engineOf .accumulating (letters 56) 448) []))).map (fun t => (List.range 5).map fun k =>
        regRead (0x10 + 4 * k) t.inst.eng) =
      some [0xc2db330f, 0x6083854c, 0x99d4b5bf, 0xb6e8f29f, 0x201be699] := by decide +kernel

/-- V-43-5 and V-45-3: in Finalized, INGEST 'x' sets SEQ, and the word 24000000 sets ILL and not SEQ. -/
theorem test_events_in_finalized :
    readAfter (step (stateOf (engineOf .finalized [] 0) [cmdWrite 0 0x21780000])) 0x04 = some 0x00020002 ∧
      readAfter (step (stateOf (engineOf .finalized [] 0) [cmdWrite 0 0x24000000])) 0x04 = some 0x00010002 := by decide

/-! ### Internal functions -/

/-- V-40-1. -/
theorem test_codec :
    be32 0x67452301 = [0x67, 0x45, 0x23, 0x01] ∧ unbe32 0x61 0x62 0x63 0x80 = 0x61626380 ∧
      be64 448 = [0, 0, 0, 0, 0, 0, 0x01, 0xC0] := by decide

/-- V-41-1: words 16, 19 and 79 of the schedule of the "abc" block. -/
theorem test_schedule_abc :
    ([16, 19, 79].map fun t => (schedule (pad [0x61, 0x62, 0x63] 24)).getD t 0) = [0xc2c4c700, 0x85898e01, 0x822e0879] := by
  decide +kernel

/-- V-42-1 at the range edges, and V-42-2. -/
theorem test_round_function :
    ([19, 20, 39, 40, 59, 60, 79].map fun t => (roundF t 0xF0F0F0F0 0xCCCCCCCC 0xAAAAAAAA, roundK t)) =
        [(0xCACACACA, 0x5A827999), (0x96969696, 0x6ED9EBA1), (0x96969696, 0x6ED9EBA1), (0xE8E8E8E8, 0x8F1BBCDC),
          (0xE8E8E8E8, 0x8F1BBCDC), (0x96969696, 0xCA62C1D6), (0x96969696, 0xCA62C1D6)] ∧
      rotl 0x80000001 5 = 0x00000030 := by decide

/-- V-42-3, round 0 of the "abc" block. -/
theorem test_round_zero :
    shaRound 0 iv 0x61626380 = ⟨0x0116fc33, 0x67452301, 0x7bf36ae2, 0x98badcfe, 0x10325476⟩ := by decide

/-- V-42-5: a block of 64 bytes 0x61. -/
theorem test_compress_letters :
    compress iv (letters 64) = ⟨0xda4968eb, 0x2e377c1f, 0x884e8f52, 0x83524beb, 0xe74ebdbd⟩ := by decide +kernel

/-- P4: 65 bytes are 21 words of three bytes and one of two. -/
theorem test_ingest_bytes :
    ingestWords (letters 65) = List.replicate 21 0x23616161 ++ [0x22616100] ∧ ingestWords [] = [0x20000000] := by decide

/-- Lines of programs P1 and P5 with their comments, an empty line, and the operand forms of R78. -/
theorem test_program_text :
    readProgram ("INGEST 'a','b', 0x63    ; 23616263\n\n; P5\nWRITE 0x00, 0x24000000 ; IllegalCommand (RSV)\n" ++
        "READ 0x24\nREAD DIGEST4\nINGEST ';', 255\nINGEST.STR \"a;b, c\"").toList =
      some [.ingest [0x61, 0x62, 0x63], .write 0x00 0x24000000, .read (.offset 0x24), .read (.digest 4),
        .ingest [0x3B, 0xFF], .ingestStr "a;b, c"] := by decide +kernel

/-- R78: at most three bytes, each at most 255, and RESET has no operand. -/
theorem test_program_text_refused :
    readProgram "INGEST 1, 2, 3, 4".toList = none ∧ readProgram "INGEST 256".toList = none ∧
      readProgram "INGEST 1,".toList = none ∧ readProgram "RESET 1".toList = none := by decide +kernel

/-- V-L1-5: uppercase verifies; 39 characters, or a character that is no digit, does not. -/
theorem test_same_digest :
    sameDigest ['D', 'A', '3', '9'] (toHexChars [0xDA, 0x39]) = true ∧
      sameDigest ['d', 'a', '3'] (toHexChars [0xDA, 0x39]) = false ∧
      sameDigest ['d', 'a', '3', 'g'] (toHexChars [0xDA, 0x39]) = false := by decide

/-- 93 U11: PHASE code 0b11 is a fault of the reader. -/
theorem test_reserved_phase_code : phaseOfStatus 0x00000003 = .fault (.reservedPhaseCode 0x00000003) := by rfl

/-! ### Witnesses: a concrete state and operands that meet the hypotheses of an obligation, named after it -/

theorem witness_DecodeEncodeRoundTrip : (Instr.ingest [0xFF, 0, 0x80]).wellFormed = true := by decide

/-- Also LegalWordIsTheEncoding and IngestPayloadAssembly, with three bytes. -/
theorem witness_LegalWordIsTheEncoding : decode 0x23FF0080 = .legal (.ingest [0xFF, 0, 0x80]) := by decide

theorem witness_IngestPayloadAssembly :
    decode 0x21610000 = .legal (.ingest [0x61]) ∧ decode 0x22626300 = .legal (.ingest [0x62, 0x63]) ∧
      decode 0x23616263 = .legal (.ingest [0x61, 0x62, 0x63]) := by decide

theorem witness_IllegalWordsExactly : ∃ r, decode 0x20010000 = .illegal r := ⟨.unusedByteSet, by decide⟩

/-- Instances 0 and 1, and an illegal word. -/
theorem witness_StepRunsTheDecodedCommand :
    (cmdWrite 0 0x30000000).command (stateOf .powerOn [cmdWrite 0 0x30000000]) = some (0, 0x30000000) ∧
      (cmdWrite 1 0x10000000).command (stateOf .powerOn [cmdWrite 1 0x10000000]) = some (1, 0x10000000) ∧
      (stateOf .powerOn []).instAt 0 = some (instanceOf .powerOn) ∧ (stateOf .powerOn []).instAt 1 = some Instance.powerOn ∧
      decode 0x30000000 = .legal .finalize ∧ decode 0x10000000 = .legal .reset ∧
      decode 0x40000000 = .illegal .reservedOpcode := by decide

theorem witness_FetchWordRunsNext : decodeTableWord 32 0x10000000 = some .reset := by decide

theorem witness_IdleHoldsState : State.reset.pending = [] := rfl

/-- The last aligned offset, 0x3C; a hardware reset of instance 1; and instance 2, which is not there. -/
theorem witness_StepCompletes :
    resolve (.window 1 0x3C) (stateOf .powerOn []) = some (1, 0x3C) ∧ 0x3C % 4 = 0 ∧
      (stateOf .powerOn []).instAt 1 ≠ none ∧ (stateOf .powerOn []).instAt 2 = none := by decide

/-- 0x40 is outside; 0x3F is inside and misaligned; 0x3C is inside and aligned, for a 16-bit access. -/
theorem witness_BadAccessRefused :
    resolve (.window 0 0x40) (stateOf .powerOn []) = none ∧ resolve (.window 0 0x3F) (stateOf .powerOn []) = some (0, 0x3F) ∧
      0x3F % 4 ≠ 0 ∧ resolve (.window 0 0x3C) (stateOf .powerOn []) = some (0, 0x3C) ∧ Width.half ≠ Width.word := by decide

/-- Three windows side by side: the first and last address of the second, and the first address after the third. -/
theorem witness_AddressReachesItsWindow :
    locate (fun k => 64 * k) 3 64 = some (1, 0) ∧ locate (fun k => 64 * k) 3 127 = some (1, 63) ∧
      locate (fun k => 64 * k) 3 192 = none ∧ (∀ j, j < 1 → ¬ (64 * j ≤ 64 ∧ 64 ≤ 64 * j + 0x3F)) ∧
      (∀ k, k < 3 → ¬ (64 * k ≤ 192 ∧ 192 ≤ 64 * k + 0x3F)) := by decide

theorem witness_HardwareResetWritesTheResetValues :
    (stateOf (engineOf .finalized [] 8) [.hardReset 0]).pending = .hardReset 0 :: [] ∧
      (stateOf (engineOf .finalized [] 8) [.hardReset 0]).instAt 0 = some (instanceOf (engineOf .finalized [] 8)) := by decide

/-- Both phases of the clauses of IngestResult, IngestWhileFinalized, FinalizeResult, FinalizeOneOrTwoBlocks,
FinalizeWhileFinalizedIsNoOp and DigestRegistersShowH. -/
theorem witness_phases :
    (stateOf .powerOn []).inst.eng.phase ≠ .finalized ∧ (stateOf (engineOf .accumulating [1] 8) []).inst.eng.phase ≠ .finalized ∧
      (stateOf (engineOf .finalized [] 8) []).inst.eng.phase = .finalized := by decide

theorem witness_PushAppendsThenFlushes :
    (engineOf .accumulating (letters 62) 0).buf.length < 63 ∧ (engineOf .accumulating (letters 63) 0).buf.length = 63 ∧
      (nextOf (exec (.ingest [7]) (stateOf (engineOf .accumulating (letters 62) 0) []))).isSome = true := by decide

/-- BUF_LEN 60 and N = 3 stays short of a block; 61 and 3, and 63 and 3, reach one. -/
theorem witness_IngestAtEveryBufferLength :
    (stateOf (engineOf .accumulating (letters 63) 0) []).inst.eng.phase ≠ .finalized ∧
      (stateOf (engineOf .accumulating (letters 63) 0) []).inst.eng.buf.length ≤ 63 ∧
      (Instr.ingest [1, 2, 3]).wellFormed = true ∧
      (letters 60).length + 3 < 64 ∧ 64 ≤ (letters 61).length + 3 ∧ 64 ≤ (letters 63).length + 3 := by decide

/-- INGEST in both phases answers a next state. -/
theorem witness_IngestFrame :
    (∃ t, exec (.ingest [1]) (stateOf .powerOn []) = .next t) ∧
      ∃ t, exec (.ingest [1]) (stateOf (engineOf .finalized [] 0) []) = .next t := ⟨⟨_, rfl⟩, ⟨_, rfl⟩⟩

theorem witness_SequenceErrorRecordsTheWord :
    (cmdWrite 0 0x21780000).command (stateOf (engineOf .finalized [] 0) [cmdWrite 0 0x21780000]) = some (0, 0x21780000) ∧
      (stateOf (engineOf .finalized [] 0) []).instAt 0 = some (instanceOf (engineOf .finalized [] 0)) ∧
      decode 0x21780000 = .legal (.ingest [0x78]) ∧ (instanceOf (engineOf .finalized [] 0)).eng.phase = .finalized := by decide

/-- Two splits of "abc", with an empty chunk. -/
theorem witness_ChunkingInvariance :
    (stateOf .powerOn []).inst.eng.phase ≠ .finalized ∧ (stateOf .powerOn []).inst.eng.buf.length ≤ 63 ∧
      ([[0x61], [], [0x62, 0x63]] : List (List Byte)).flatten = ([[0x61, 0x62, 0x63]] : List (List Byte)).flatten := by decide

/-- Reset holds the empty message. -/
theorem witness_IngestAppendsToTheMessage : (stateOf .powerOn []).inst.eng.Holds [] where
  hash := (compressAll_short iv (s := []) (by decide)).symm
  rest := rfl
  count := rfl
  lifecycle := Or.inr ⟨rfl, rfl⟩

/-- The edges of the one-block and two-block cases; also PaddingFormula, PaddingFsmEqualsFinalize and CompressionCounts. -/
theorem witness_FinalizeOneOrTwoBlocks :
    (letters 55).length ≤ 55 ∧ 56 ≤ (letters 56).length ∧ (letters 63).length ≤ 63 ∧
      (engineOf .accumulating (letters 63) 504).phase ≠ .finalized ∧ (engineOf .accumulating (letters 63) 504).buf.length ≤ 63 := by
  decide

/-- The two premises on exec of FinalizeWhileFinalizedIsNoOp and PaddingFormula. -/
theorem witness_finalize_completes : ∃ t, exec .finalize (stateOf .powerOn []) = .next t := ⟨_, rfl⟩

/-- A 64-byte block: ScheduleRecurrence, CompressIsEightyRounds, ScheduleWindowConforms and CodecLaws. -/
theorem witness_block : (letters 64).length = 64 := by decide

/-- The ends of the ranges of LengthEncoding, ScheduleRecurrence, RoundFunctionTable and RotateMovesBits. -/
theorem witness_ranges :
    (7 : Nat) < 8 ∧ (15 : Nat) < 16 ∧ (16 : Nat) ≤ 16 ∧ (79 : Nat) < 80 ∧ (19 : Nat) ≤ 19 ∧ (20 : Nat) ≤ 39 ∧
      (40 : Nat) ≤ 59 ∧ (60 : Nat) ≤ 79 ∧ (0 : Nat) < 31 ∧ (31 : Nat) < 32 := by decide

theorem witness_CompressionCounts :
    Instr.finalize ≠ .reset ∧ (stateOf (engineOf .accumulating (letters 63) 504) []).inst.eng.buf.length ≤ 63 ∧
      ∃ t, exec (.ingest [1]) (stateOf (engineOf .accumulating (letters 63) 504) []) = .next t :=
  ⟨by decide, by decide, ⟨_, rfl⟩⟩

/-- R28 holds of an instance in the reset state. -/
theorem powerOn_inv : Engine.powerOn.Inv where
  bufShort := by decide
  freshClean _ := ⟨rfl, rfl, rfl⟩
  finalizedDigest h := absurd h (by decide)
  accumulatingCount h := absurd h (by decide)
  memoZero _ := rfl

/-- A state that meets R28 with a FINALIZE pending, and its step. -/
theorem witness_StepKeepsInvariants :
    (stateOf .powerOn [cmdWrite 0 0x30000000]).Inv ∧ ∃ t, step (stateOf .powerOn [cmdWrite 0 0x30000000]) = .next t :=
  ⟨⟨powerOn_inv, fun i hi => by rw [List.mem_singleton.mp hi]; exact powerOn_inv⟩, ⟨_, rfl⟩⟩

/-- Both instances hold the empty message, and a FINALIZE is pending. -/
theorem witness_StepKeepsDigestsRight :
    (∀ k j, (stateOf .powerOn [cmdWrite 0 0x30000000]).instAt k = some j →
      (∃ m, j.eng.Holds m) ∨ ∃ m, j.eng.phase = .finalized ∧ j.eng.memo = messageDigest m) ∧
      ∃ t, step (stateOf .powerOn [cmdWrite 0 0x30000000]) = .next t := by
  refine ⟨?_, ⟨_, rfl⟩⟩
  intro k j h
  match k, h with
  | 0, h => cases h; exact Or.inl ⟨[], witness_IngestAppendsToTheMessage⟩
  | 1, h => cases h; exact Or.inl ⟨[], witness_IngestAppendsToTheMessage⟩
  | n + 2, h => cases n <;> cases h

/-- A Finalized instance with an INGEST pending, which is no reset of it; also the first clause of
StickyBitsStayAndDoNotStop, with ILL set. -/
theorem witness_FinalizedUntilReset :
    (∃ t, step (stateOf { engineOf .finalized [] 0 with ill := true } [cmdWrite 0 0x21780000]) = .next t) ∧
      (stateOf { engineOf .finalized [] 0 with ill := true } []).instAt 0 =
        some (instanceOf { engineOf .finalized [] 0 with ill := true }) ∧
      ¬ (cmdWrite 0 0x21780000).resets 0 (stateOf { engineOf .finalized [] 0 with ill := true } [cmdWrite 0 0x21780000]) := by
  refine ⟨⟨_, rfl⟩, rfl, ?_⟩
  rintro (h | ⟨w, h, hd⟩)
  · cases h
  · cases h
    exact absurd hd (by decide)

/-- The second clause: the two accesses that reset an instance. -/
theorem witness_StickyBitsStayAndDoNotStop :
    (Access.hardReset 0).resets 0 (stateOf .powerOn [.hardReset 0]) ∧
      (cmdWrite 1 0x10000000).resets 1 (stateOf .powerOn [cmdWrite 1 0x10000000]) ∧
      (stateOf .powerOn []).instAt 0 ≠ none ∧ (stateOf .powerOn []).instAt 1 ≠ none :=
  ⟨Or.inl rfl, Or.inr ⟨0x10000000, rfl, by decide⟩, by decide, by decide⟩

theorem witness_IllegalCommandSetsOnlyIll :
    (cmdWrite 1 0x24000000).command (stateOf .powerOn [cmdWrite 1 0x24000000]) = some (1, 0x24000000) ∧
      (stateOf .powerOn []).instAt 1 = some Instance.powerOn ∧ decode 0x24000000 = .illegal .reservedBitsSet := by decide

/-- A run that has an event and goes on. -/
theorem witness_FaultLogRecordsAndIsNeverCleared :
    (raise (.illegalCommand 0) (stateOf .powerOn [cmdWrite 0 0x10000000])).inst.faultLog ≠ [] ∧
      ∃ t, runSteps 1 (raise (.illegalCommand 0) (stateOf .powerOn [cmdWrite 0 0x10000000])) = .next t :=
  ⟨by decide, ⟨_, rfl⟩⟩

/-- Every clause of RegisterReads: each offset of the window lies under one of them. -/
theorem witness_RegisterReads :
    ∀ n, n < 16 → resolve (.window 0 (4 * n)) (stateOf .powerOn []) = some (0, 4 * n) ∧ 4 * n % 4 = 0 ∧
      (4 * n ≤ 0x0C ∨ (∃ i : Fin 5, 4 * n = 0x10 + 4 * i.val) ∨ 0x24 ≤ 4 * n) := by decide

/-- An address target reaches instance 0 whatever BASE is. -/
theorem witness_address_target (s : State) : resolve (.address (Config.base 0 + 0x3C)) s = some (0, 0x3C) := by
  have h : inWindow (Config.base 0) (Config.base 0 + 0x3C) = true := (inWindow_iff _ _).mpr (by omega)
  simp [resolve, locate, State.numInstances, List.range_succ_eq_map, h]

theorem witness_StatusFields : (engineOf .accumulating (letters 63) 504).buf.length ≤ 63 := by decide

theorem witness_OtherWritesIgnored :
    resolve (.window 0 0x04) (stateOf .powerOn []) = some (0, 0x04) ∧ 0x04 % 4 = 0 ∧ (0x04 : Nat) ≠ 0x00 ∧
      (stateOf .powerOn []).instAt 0 ≠ none := by decide

theorem witness_OnlyCommandsChangeEngines :
    (∃ t, step (stateOf .powerOn [readOf 0 (.digest 0)]) = .next t) ∧
      (readOf 0 (.digest 0)).command (stateOf .powerOn [readOf 0 (.digest 0)]) = none ∧
      (∀ n, readOf 0 (.digest 0) ≠ .hardReset n) := ⟨⟨_, rfl⟩, rfl, by intro n h; cases h⟩

theorem witness_BitCounterReadsConsistent :
    (stateOf (engineOf .accumulating [] 512) [readOf 0 .bitcntHi, readOf 0 .bitcntLo]).pending =
        readOf 0 .bitcntHi :: readOf 0 .bitcntLo :: [] ∧
      (stateOf (engineOf .accumulating [] 512) []).instAt 0 = some (instanceOf (engineOf .accumulating [] 512)) := by decide

/-- An access to instance 1 does not reach instance 0. -/
theorem witness_InstancesShareNoState :
    (∃ t, step (stateOf .powerOn [cmdWrite 1 0x30000000]) = .next t) ∧
      (cmdWrite 1 0x30000000).reaches (stateOf .powerOn [cmdWrite 1 0x30000000]) ≠ some 0 := ⟨⟨_, rfl⟩, by decide⟩

/-- Two platforms that agree on instance 1 alone. -/
theorem witness_InstanceLearnsNothingOfOthers :
    (cmdWrite 1 0x30000000).reaches (stateOf .powerOn [cmdWrite 1 0x30000000]) = some 1 ∧
      resolve (.window 1 0) (stateOf .powerOn []) = resolve (.window 1 0) (stateOf (engineOf .finalized [] 8) []) ∧
      (stateOf .powerOn []).instAt 1 = (stateOf (engineOf .finalized [] 8) []).instAt 1 ∧
      (stateOf .powerOn []).instAt 0 ≠ (stateOf (engineOf .finalized [] 8) []).instAt 0 ∧
      ∃ t, step (stateOf .powerOn [cmdWrite 1 0x30000000]) = .next t :=
  ⟨by decide, by decide, by decide, by decide, ⟨_, rfl⟩⟩

/-- HashStringGivesTheDigest and VerifyComparesDigest, on instance 1 of a platform whose instance 0 is in use. -/
theorem witness_HashStringGivesTheDigest :
    (stateOf (engineOf .accumulating [1] 8) []).pending = [] ∧
      (stateOf (engineOf .accumulating [1] 8) []).instAt 1 = some Instance.powerOn := by decide

end Sys2Proof.Tests
end

