-- ==== Sys2Proof/Proofs/Lifecycle.lean ====
section
/-! PROOF. The lifecycle of R26: what each command does to PHASE, one lemma per engine operation and per case of a command. -/

namespace Sys2Proof.Machine

@[simp] theorem engine_reset_phase (e : Engine) : e.reset.phase = .fresh := rfl
@[simp] theorem engine_ingest_phase (e : Engine) (bytes : List Byte) : (e.ingest bytes).phase = .accumulating := rfl
@[simp] theorem finalizeNow_phase (e : Engine) : e.finalizeNow.phase = .finalized := rfl

/-- FINALIZE ends in Finalized from every PHASE: it stays there (R164) or is moved there (R160). -/
@[simp] theorem engine_finalize_phase (e : Engine) : e.finalize.phase = .finalized := by
  by_cases h : e.phase = .finalized
  · rw [finalize_of_finalized h, h]
  · rw [finalize_of_open h, finalizeNow_phase]

theorem instExec_ingest_open {j : Instance} (h : j.eng.phase ≠ .finalized) (bytes : List Byte) :
    instExec (.ingest bytes) j = { j with eng := j.eng.ingest bytes } := if_neg h

/-- INGEST while Finalized is a SequenceError and nothing else (R143). -/
theorem instExec_ingest_finalized {j : Instance} (h : j.eng.phase = .finalized) (bytes : List Byte) :
    instExec (.ingest bytes) j =
      { j with
        eng := { j.eng with seq := true }
        faultLog := j.faultLog ++ [.sequenceError (encode (.ingest bytes))] } := if_pos h

theorem instExec_finalize_finalized {j : Instance} (h : j.eng.phase = .finalized) : instExec .finalize j = j := by
  simp only [instExec, finalize_of_finalized h]

/-- INGEST leads to Accumulating from every PHASE but Finalized (R26). -/
theorem instExec_ingest_phase_open {j : Instance} (h : j.eng.phase ≠ .finalized) (bytes : List Byte) :
    (instExec (.ingest bytes) j).eng.phase = .accumulating := by
  rw [instExec_ingest_open h, engine_ingest_phase]

/-- Settles O40: every command completes (`exec_eq`), so each cell of R26's table is what `instExec` does to PHASE. -/
theorem phaseTransitions : Obligations.PhaseTransitions := by
  intro s
  refine ⟨⟨_, exec_eq .reset s, engine_reset_phase s.inst.eng⟩,
    fun bytes => ⟨_, exec_eq (.ingest bytes) s, ?fresh, ?accumulating, ?finalized⟩,
    ⟨_, exec_eq .finalize s, engine_finalize_phase s.inst.eng, ?finalizeAgain⟩⟩
  case fresh => exact fun h => instExec_ingest_phase_open (by simp [h]) bytes
  case accumulating => exact fun h => instExec_ingest_phase_open (by simp [h]) bytes
  case finalized =>
    intro h
    rw [instExec_ingest_finalized h]
    exact ⟨h, rfl⟩
  case finalizeAgain =>
    intro h
    rw [instExec_finalize_finalized h]

end Sys2Proof.Machine
end

section
/-! PROOF. Decoding by the bullets of R76, and the payload of a legal INGEST word (30_encoding.md R73, R74): one equation of
`decode` per opcode, and one lemma per arm that says which words it finds illegal. -/

namespace Sys2Proof

theorem decode_of_op_reset {w : Word} (h : opField w = 1) : decode w = decodeFormatZ .reset w := by
  rw [decode, h]
  rfl

theorem decode_of_op_ingest {w : Word} (h : opField w = 2) : decode w = decodeIngest w := by
  rw [decode, h]
  rfl

theorem decode_of_op_finalize {w : Word} (h : opField w = 3) : decode w = decodeFormatZ .finalize w := by
  rw [decode, h]
  rfl

/-- The opcodes R75 reserves. -/
theorem decode_of_op_reserved {w : Word} (h : opField w = 0 ∨ 4 ≤ opField w) : decode w = .illegal .reservedOpcode := by
  have hnat : (opField w).toNat = 0 ∨ 4 ≤ (opField w).toNat := h.imp (congrArg BitVec.toNat) BitVec.le_def.mp
  rw [decode]
  split
  case h_4 => rfl
  all_goals omega

/-- The second bullet of R76. -/
theorem decodeFormatZ_illegal_iff {i : Instr} {w : Word} : (∃ r, decodeFormatZ i w = .illegal r) ↔ zeroField w ≠ 0 := by
  unfold decodeFormatZ
  split_ifs with hz
  · exact iff_of_false (fun ⟨_, h⟩ => nomatch h) (not_not_intro hz)
  · exact iff_of_true ⟨_, rfl⟩ hz

theorem decodeFormatZ_legal {i k : Instr} {w : Word} (h : decodeFormatZ i w = .legal k) : k = i := by
  unfold decodeFormatZ at h
  split at h
  · cases h
    rfl
  · cases h

/-- The last two bullets of R76: RSV, and a payload byte beyond N. -/
theorem decodeIngest_illegal_iff {w : Word} :
    (∃ r, decodeIngest w = .illegal r) ↔
      rsvField w ≠ 0 ∨ (countField w < 1 ∧ dataField0 w ≠ 0) ∨ (countField w < 2 ∧ dataField1 w ≠ 0) ∨
        (countField w < 3 ∧ dataField2 w ≠ 0) := by
  simp only [BitVec.lt_def]
  unfold decodeIngest
  split_ifs with hrsv h2 h1 h0
  · exact iff_of_true ⟨_, rfl⟩ (.inl hrsv)
  · exact iff_of_true ⟨_, rfl⟩ (.inr (.inr (.inr h2)))
  · exact iff_of_true ⟨_, rfl⟩ (.inr (.inr (.inl h1)))
  · exact iff_of_true ⟨_, rfl⟩ (.inr (.inl h0))
  · refine iff_of_false (fun ⟨_, h⟩ => nomatch h) ?_
    rintro (h | h | h | h)
    exacts [hrsv h, h0 h, h1 h, h2 h]

theorem decodeIngest_legal {w : Word} {i : Instr} (h : decodeIngest w = .legal i) : i = .ingest (payload w) := by
  unfold decodeIngest at h
  split_ifs at h
  cases h
  rfl

/-- Only a word of OP 0x2 means INGEST, and it carries the bytes R73 assembles. -/
theorem decode_ingest_payload {w : Word} {bytes : List Byte} (h : decode w = .legal (.ingest bytes)) : bytes = payload w := by
  obtain hop | hop | hop | hop := opField_cases w
  · rw [decode_of_op_reset hop] at h
    cases decodeFormatZ_legal h
  · rw [decode_of_op_ingest hop] at h
    cases decodeIngest_legal h
    rfl
  · rw [decode_of_op_finalize hop] at h
    cases decodeFormatZ_legal h
  · rw [decode_of_op_reserved hop] at h
    cases h

@[simp] theorem payload_length (w : Word) : (payload w).length = (countField w).toNat := by
  rw [payload, List.length_take]
  exact min_eq_left (Nat.le_of_lt_succ (countField w).isLt)

/-- Byte j of the payload is data byte j of the word, for each j below N (R73). -/
theorem payload_getElem? {w : Word} {j : Nat} (h : j < (payload w).length) :
    (payload w)[j]? = [dataField0 w, dataField1 w, dataField2 w][j]? := by
  rw [payload_length] at h
  exact List.getElem?_take_of_lt h

end Sys2Proof

namespace Sys2Proof.Machine

/-- Writing an illegal word to CMD raises IllegalCommand in every PHASE (R189). -/
theorem regWrite_cmd_illegal {w : Word} {r : IllegalReason} (h : decode w = .illegal r) (s : State) :
    regWrite 0x00 w s = .next { s with inst := { s.inst with
      eng := { s.inst.eng with ill := true }, faultLog := s.inst.faultLog ++ [.illegalCommand w] } } := by
  rw [regWrite_eq, if_pos rfl, wordEffect_illegal h]

/-- Settles O4: each opcode has one arm of `decode`, and each arm its own illegal words. -/
theorem illegalWordsExactly : Obligations.IllegalWordsExactly := by
  intro w
  refine ⟨?_, fun s ⟨_, h⟩ => regWrite_cmd_illegal h s⟩
  obtain hop | hop | hop | hop := opField_cases w
  · rw [decode_of_op_reset hop, decodeFormatZ_illegal_iff]
    simp [hop]
  · rw [decode_of_op_ingest hop, decodeIngest_illegal_iff]
    simp [hop]
  · rw [decode_of_op_finalize hop, decodeFormatZ_illegal_iff]
    simp [hop]
  · rw [decode_of_op_reserved hop]
    exact iff_of_true ⟨_, rfl⟩ (.inl hop)

/-- Settles O5: a legal INGEST word carries `payload`, whose length is N and whose bytes are the data fields in order. -/
theorem ingestPayloadAssembly : Obligations.IngestPayloadAssembly := by
  refine ⟨fun w bytes h => ?_, by decide⟩
  cases decode_ingest_payload h
  exact ⟨payload_length w, payload_getElem?, payload_getElem?, payload_getElem?⟩

end Sys2Proof.Machine
end

section
/-! PROOF. The bytes of the big-endian encodings (40_byte_codec.md R100, R102): which bits of the word byte j holds. -/

namespace Sys2Proof.Machine

/-- A field within a field is one field of the whole: the two starts add up. -/
theorem extractLsb'_extractLsb'_of_fits {w start len start' len' : Nat} (x : BitVec w) (h : start + len ≤ len') :
    (x.extractLsb' start' len').extractLsb' start len = x.extractLsb' (start' + start) len := by
  apply BitVec.eq_of_getLsbD_eq
  intro i hi
  have hfits : start + i < len' := by omega
  simp [BitVec.getLsbD_extractLsb', hfits, Nat.add_assoc]

/-- Byte j of be32 counts from the most significant end (R100). -/
theorem be32_getElem? (x : Word) {j : Nat} (h : j < 4) : (be32 x)[j]? = some (x.extractLsb' (24 - 8 * j) 8) := by
  match j, h with
  | 0, _ | 1, _ | 2, _ | 3, _ => rfl

/-- Byte j of the encoding of a 32-bit field is a byte of the whole value. -/
theorem be32_extractLsb'_getElem? {w : Nat} (n : BitVec w) (start : Nat) {j : Nat} (h : j < 4) :
    (be32 (n.extractLsb' start 32))[j]? = some (n.extractLsb' (start + (24 - 8 * j)) 8) := by
  rw [be32_getElem? _ h, extractLsb'_extractLsb'_of_fits n (by omega)]

/-- Bytes 0 to 3 come from the high half and bytes 4 to 7 from the low half (R102). -/
theorem be64_getElem? (n : Word64) {j : Nat} (h : j < 8) : (be64 n)[j]? = some (n.extractLsb' (56 - 8 * j) 8) := by
  rw [be64]
  obtain hhigh | hlow := Nat.lt_or_ge j 4
  · have hpos : 32 + (24 - 8 * j) = 56 - 8 * j := by omega
    rw [List.getElem?_append_left (by simpa using hhigh), be32_extractLsb'_getElem? n 32 hhigh, hpos]
  · have hpos : 0 + (24 - 8 * (j - 4)) = 56 - 8 * j := by omega
    rw [List.getElem?_append_right (by simpa using hlow), be32_length, be32_extractLsb'_getElem? n 0 (by omega), hpos]

/-- Settles O34: be64 is the two halves by definition, and each half's bytes are those of `be32`. -/
theorem lengthEncoding : Obligations.LengthEncoding :=
  fun n => ⟨rfl, be64_length n, fun _ => be64_getElem? n⟩

end Sys2Proof.Machine
end

section
/-! PROOF. The message schedule (41_schedule_expander.md R110): its first sixteen words are the block's own (40_byte_codec.md R103),
and each later word obeys the recurrence on the finished schedule, since words once produced stay. -/

namespace Sys2Proof.Machine

/-- Past the first word's four bytes, the bytes of word t + 1 are the bytes of word t of the rest. -/
theorem slice_word_succ (s0 s1 s2 s3 : Byte) (rest : List Byte) (t : Nat) :
    slice (s0 :: s1 :: s2 :: s3 :: rest) (4 * (t + 1)) (4 * (t + 1) + 4) = slice rest (4 * t) (4 * t + 4) := by
  simp [slice, Nat.mul_add]

/-- Word t of `words16` is the big-endian word of bytes 4t to 4t+3 (R103). -/
theorem words16_getElem? (t : Nat) : ∀ block : List Byte, 4 * t + 4 ≤ block.length →
    ∃ s0 s1 s2 s3, slice block (4 * t) (4 * t + 4) = [s0, s1, s2, s3] ∧
      (words16 block)[t]? = some (unbe32 s0 s1 s2 s3) := by
  induction t with
  | zero =>
    intro block h
    match block, h with
    | s0 :: s1 :: s2 :: s3 :: _, _ => exact ⟨s0, s1, s2, s3, rfl, rfl⟩
  | succ t ih =>
    intro block h
    match block, h with
    | s0 :: s1 :: s2 :: s3 :: rest, h =>
      have hrest : 4 * t + 4 ≤ rest.length := by simp only [List.length_cons] at h; omega
      rw [slice_word_succ, words16, List.getElem?_cons_succ]
      exact ih rest hrest

theorem scheduleWord_expandSchedule_old (n : Nat) {w : List Word} {t : Nat} (h : t < w.length) :
    scheduleWord (expandSchedule n w) t = scheduleWord w t := by
  rw [scheduleWord, scheduleWord, List.getD_eq_getElem?_getD, List.getD_eq_getElem?_getD, expandSchedule_old n w t h]

/-- The first word the loop adds, before any later word is there. -/
theorem expandSchedule_getElem?_length (n : Nat) (w : List Word) :
    (expandSchedule (n + 1) w)[w.length]? = some (nextScheduleWord w) := by
  rw [expandSchedule, expandSchedule_old n _ _ (by simp), List.getElem?_concat_length]

/-- `nextScheduleWord` reads the same four words in any longer schedule. -/
theorem nextScheduleWord_eq_of_expandSchedule (n : Nat) {w : List Word} (h : 0 < w.length) :
    nextScheduleWord w = rotl (scheduleWord (expandSchedule n w) (w.length - 3) ^^^
      scheduleWord (expandSchedule n w) (w.length - 8) ^^^ scheduleWord (expandSchedule n w) (w.length - 14) ^^^
      scheduleWord (expandSchedule n w) (w.length - 16)) 1 := by
  have hold (k : Nat) (hk : 0 < k) :
      scheduleWord (expandSchedule n w) (w.length - k) = scheduleWord w (w.length - k) :=
    scheduleWord_expandSchedule_old n (Nat.sub_lt h hk)
  rw [hold 3 (by decide), hold 8 (by decide), hold 14 (by decide), hold 16 (by decide), nextScheduleWord]

/-- The recurrence of R110 at every index the loop fills, read on the finished schedule. -/
theorem expandSchedule_recurrence {n t : Nat} {w : List Word} (hpos : 0 < w.length) (hge : w.length ≤ t)
    (hlt : t < w.length + n) :
    (expandSchedule n w)[t]? = some (rotl (scheduleWord (expandSchedule n w) (t - 3) ^^^
      scheduleWord (expandSchedule n w) (t - 8) ^^^ scheduleWord (expandSchedule n w) (t - 14) ^^^
      scheduleWord (expandSchedule n w) (t - 16)) 1) := by
  obtain ⟨i, rfl⟩ := Nat.exists_eq_add_of_le hge
  obtain ⟨m, rfl⟩ : ∃ m, n = i + (m + 1) := ⟨n - i - 1, by omega⟩
  rw [expandSchedule_add, ← expandSchedule_length i w, expandSchedule_getElem?_length,
    ← nextScheduleWord_eq_of_expandSchedule (m + 1) (by rw [expandSchedule_length]; omega)]

/-- Settles O35: the loop keeps the sixteen words of the block and fills 16 to 79 by the recurrence. -/
theorem scheduleRecurrence : Obligations.ScheduleRecurrence := by
  intro block hblock
  have hwords : (words16 block).length = 16 := words16_length 16 block hblock
  refine ⟨?length, fun t ht => ?blockWord, fun t hge hlt => ?laterWord⟩
  case length => rw [schedule, expandSchedule_length, hwords]
  case blockWord =>
    rw [schedule, expandSchedule_old 64 _ t (by omega)]
    exact words16_getElem? t block (by omega)
  case laterWord => exact expandSchedule_recurrence (by omega) (by omega) (by omega)

end Sys2Proof.Machine
end

section
/-! PROOF. The round function and the compression (42_compression.md R120 to R122): f as choice, parity or majority bit by bit with
the corner cases read off the bits, and `compress` as the fold of its rounds over the round index. -/

namespace Sys2Proof.Machine

/-! The rows of R120's table. -/

theorem roundF_choice {t : Nat} (h : t ≤ 19) (b c d : Word) : roundF t b c d = (b &&& c) ||| (~~~b &&& d) :=
  if_pos (by omega)

/-- The second and the fourth row have one f. -/
theorem roundF_parity {t : Nat} (h : 20 ≤ t ∧ t ≤ 39 ∨ 60 ≤ t) (b c d : Word) : roundF t b c d = b ^^^ c ^^^ d := by
  rw [roundF, if_neg (by omega)]
  obtain ⟨_, _⟩ | _ := h
  · rw [if_pos (by omega)]
  · rw [if_neg (by omega), if_neg (by omega)]

theorem roundF_majority {t : Nat} (h : 40 ≤ t) (h' : t ≤ 59) (b c d : Word) :
    roundF t b c d = (b &&& c) ||| (b &&& d) ||| (c &&& d) := by
  rw [roundF, if_neg (by omega), if_neg (by omega), if_pos (by omega)]

theorem roundK_first {t : Nat} (h : t ≤ 19) : roundK t = 0x5A827999 := if_pos (by omega)

theorem roundK_second {t : Nat} (h : 20 ≤ t) (h' : t ≤ 39) : roundK t = 0x6ED9EBA1 := by
  rw [roundK, if_neg (by omega), if_pos (by omega)]

theorem roundK_third {t : Nat} (h : 40 ≤ t) (h' : t ≤ 59) : roundK t = 0x8F1BBCDC := by
  rw [roundK, if_neg (by omega), if_neg (by omega), if_pos (by omega)]

theorem roundK_fourth {t : Nat} (h : 60 ≤ t) : roundK t = 0xCA62C1D6 := by
  rw [roundK, if_neg (by omega), if_neg (by omega), if_neg (by omega)]

/-! Each f bit by bit, and its corner cases. -/

/-- Choice picks each bit from c where b is 1 and from d where b is 0. -/
theorem roundF_choice_getLsbD {t i : Nat} (h : t ≤ 19) (hi : i < 32) (b c d : Word) :
    (roundF t b c d).getLsbD i = if b.getLsbD i then c.getLsbD i else d.getLsbD i := by
  rw [roundF_choice h]
  simp only [BitVec.getLsbD_or, BitVec.getLsbD_and, BitVec.getLsbD_not, hi]
  cases b.getLsbD i <;> simp

theorem roundF_choice_allOnes {t : Nat} (h : t ≤ 19) (c d : Word) : roundF t 0xFFFFFFFF c d = c := by
  apply BitVec.eq_of_getLsbD_eq
  intro i hi
  have hone : (0xFFFFFFFF : Word).getLsbD i = true := (BitVec.getLsbD_allOnes (v := 32)).trans (decide_eq_true hi)
  rw [roundF_choice_getLsbD h hi, if_pos hone]

theorem roundF_choice_zero {t : Nat} (h : t ≤ 19) (c d : Word) : roundF t 0 c d = d := by
  apply BitVec.eq_of_getLsbD_eq
  intro i hi
  rw [roundF_choice_getLsbD h hi, if_neg (by simp)]

/-- Equal words cancel in the parity. -/
theorem roundF_parity_cancel {t : Nat} (h : 20 ≤ t ∧ t ≤ 39 ∨ 60 ≤ t) (b c : Word) : roundF t b b c = c := by
  rw [roundF_parity h, BitVec.xor_self, BitVec.zero_xor]

/-- Majority is 1 where at least two of the three bits are. -/
theorem roundF_majority_getLsbD {t : Nat} (h : 40 ≤ t) (h' : t ≤ 59) (b c d : Word) (i : Nat) :
    (roundF t b c d).getLsbD i =
      decide (2 ≤ (b.getLsbD i).toNat + (c.getLsbD i).toNat + (d.getLsbD i).toNat) := by
  rw [roundF_majority h h']
  simp only [BitVec.getLsbD_or, BitVec.getLsbD_and]
  generalize b.getLsbD i = x, c.getLsbD i = y, d.getLsbD i = z
  revert x y z
  decide

/-- Two equal words outvote the third. -/
theorem roundF_majority_agree {t : Nat} (h : 40 ≤ t) (h' : t ≤ 59) (b c : Word) : roundF t b b c = b := by
  apply BitVec.eq_of_getLsbD_eq
  intro i _
  rw [roundF_majority_getLsbD h h']
  cases b.getLsbD i <;> cases c.getLsbD i <;> rfl

/-- Two opposite words leave the vote to the third. -/
theorem roundF_majority_oppose {t : Nat} (h : 40 ≤ t) (h' : t ≤ 59) (b c : Word) : roundF t b (~~~b) c = c := by
  apply BitVec.eq_of_getLsbD_eq
  intro i hi
  rw [roundF_majority_getLsbD h h', BitVec.getLsbD_not, decide_eq_true hi]
  cases b.getLsbD i <;> cases c.getLsbD i <;> rfl

/-- Settles O36: one row of the table after the other, each with its bits and corner cases. -/
theorem roundFunctionTable : Obligations.RoundFunctionTable := by
  intro t b c d
  refine ⟨fun h => ?choice, fun h h' => ?parity, fun h h' => ?majority, fun h _ => ?parityAgain⟩
  case choice =>
    exact ⟨roundF_choice h b c d, roundK_first h, fun i hi => roundF_choice_getLsbD h hi b c d,
      roundF_choice_allOnes h c d, roundF_choice_zero h c d⟩
  case parity =>
    exact ⟨roundF_parity (.inl ⟨h, h'⟩) b c d, roundK_second h h', roundF_parity_cancel (.inl ⟨h, h'⟩) b c⟩
  case majority =>
    exact ⟨roundF_majority h h' b c d, roundK_third h h', fun i _ => roundF_majority_getLsbD h h' b c d i,
      roundF_majority_agree h h' b c, roundF_majority_oppose h h' b c⟩
  case parityAgain =>
    exact ⟨roundF_parity (.inr h) b c d, roundK_fourth h, roundF_parity_cancel (.inr h) b c⟩

theorem schedule_length {block : List Byte} (h : block.length = 64) : (schedule block).length = 80 :=
  (scheduleRecurrence block h).1

/-- The rounds of a block are the rounds t = 0 to 79, each with W[t] of the schedule. -/
theorem rounds_schedule_eq_fold {block : List Byte} (hblock : block.length = 64) (h : HashState) :
    rounds 0 (schedule block) h =
      (List.range 80).foldl (fun x t => shaRound t x ((schedule block).getD t 0)) h := by
  simp only [rounds_eq_fold, schedule_length hblock, Nat.zero_add]

/-- Settles O37: the fold's body is `shaRound` written out, and the five additions are `addWords`. -/
theorem compressIsEightyRounds : Obligations.CompressIsEightyRounds :=
  fun h block hblock => ⟨rounds 0 (schedule block) h, rounds_schedule_eq_fold hblock h, rfl⟩

end Sys2Proof.Machine
end

section
/-! PROOF. The accumulator (43_accumulator.md R140, R141, R143): what INGEST answers on both sides of FINALIZE, and the bound on the
buffer that every command keeps. -/

namespace Sys2Proof.Machine

theorem exec_ingest_open {s : State} (h : s.inst.eng.phase ≠ .finalized) (bytes : List Byte) :
    exec (.ingest bytes) s = .next (s.setEngine (s.inst.eng.ingest bytes)) := by
  rw [exec_eq, instExec_ingest_open h, State.setEngine]

theorem exec_ingest_finalized {s : State} (h : s.inst.eng.phase = .finalized) (bytes : List Byte) :
    exec (.ingest bytes) s = .next (raise (.sequenceError (encode (.ingest bytes))) s) := by
  rw [exec_eq, instExec_ingest_finalized h, raise, Engine.setSticky]

/-- Settles O16: the two cases of `exec` on INGEST, with `Engine.ingest` written out as the loop of pushes. -/
theorem ingestResult : Obligations.IngestResult :=
  fun _ bytes => ⟨fun h => exec_ingest_open h bytes, fun h => exec_ingest_finalized h bytes⟩

/-- Settles O19: SequenceError sets the sticky bit SEQ and is logged, and touches nothing else. -/
theorem ingestWhileFinalized : Obligations.IngestWhileFinalized :=
  fun _ bytes h => exec_ingest_finalized h bytes

@[simp] theorem engine_ingest_buf (e : Engine) (bytes : List Byte) : (e.ingest bytes).buf = (e.pushAll bytes).buf := rfl
@[simp] theorem engine_reset_buf (e : Engine) : e.reset.buf = [] := rfl
@[simp] theorem finalizeNow_buf (e : Engine) : e.finalizeNow.buf = [] := rfl

/-- What a run of pushes leaves buffered is short of a block. -/
theorem pushAll_buf_short {e : Engine} (h : e.buf.length ≤ 63) (bytes : List Byte) :
    (e.pushAll bytes).buf.length ≤ 63 := by
  rw [pushAll_eq bytes e h, blockRest_length]
  omega

theorem finalize_buf_short {e : Engine} (h : e.buf.length ≤ 63) : e.finalize.buf.length ≤ 63 := by
  by_cases hfin : e.phase = .finalized
  · rwa [finalize_of_finalized hfin]
  · simp [finalize_of_open hfin]

/-- Every command keeps the bound of R141 on the buffer. -/
theorem instExec_buf_short {j : Instance} (h : j.eng.buf.length ≤ 63) (i : Instr) :
    (instExec i j).eng.buf.length ≤ 63 := by
  cases i with
  | reset => simp [instExec]
  | ingest bytes =>
    by_cases hfin : j.eng.phase = .finalized
    · rwa [instExec_ingest_finalized hfin]
    · rw [instExec_ingest_open hfin, engine_ingest_buf]
      exact pushAll_buf_short h bytes
  | finalize => exact finalize_buf_short h

/-- Settles O17: `push` by its two cases (`push_short`, `push_full`), and the bound through the instance every command ends in. -/
theorem pushAppendsThenFlushes : Obligations.PushAppendsThenFlushes := by
  refine ⟨fun e x => ⟨fun h => push_short e x (Nat.ne_of_lt h), push_full e x⟩, fun s t i hbuf ht => ?_⟩
  rw [exec_eq] at ht
  cases ht
  exact instExec_buf_short hbuf i

end Sys2Proof.Machine
end

section
/-! PROOF. The byte codec's two directions (40_byte_codec.md R100, R101): `unbe32` undoes `be32`, and `be32` undoes `unbe32`. -/

namespace Sys2Proof.Machine

/-- `unbe32` on the four bytes of `be32 x`. -/
theorem unbe32_bytes (x : Word) :
    unbe32 (x.extractLsb' 24 8) (x.extractLsb' 16 8) (x.extractLsb' 8 8) (x.extractLsb' 0 8) = x := by
  have h24 : x.extractLsb' 24 8 ++ x.extractLsb' 16 8 ++ x.extractLsb' 8 8 = x.extractLsb' 8 24 := by
    rw [BitVec.extractLsb'_append_extractLsb'_eq_extractLsb' (start₂ := 24) (start₁ := 16) rfl]
    exact BitVec.extractLsb'_append_extractLsb'_eq_extractLsb' rfl
  rw [unbe32, h24]
  exact BitVec.extractLsb'_append_extractLsb' (w := 24) (len := 8)

/-- Each byte is the field of the concatenation it was put at. -/
theorem be32_unbe32 (s0 s1 s2 s3 : Byte) : be32 (unbe32 s0 s1 s2 s3) = [s0, s1, s2, s3] := by
  have hlast {v : Nat} (a : BitVec v) (b : Byte) : (a ++ b).extractLsb' 0 8 = b := BitVec.extractLsb'_append_eq_right
  have hrest {v : Nat} (a : BitVec v) (b : Byte) (j : Nat) : (a ++ b).extractLsb' (j + 8) 8 = a.extractLsb' j 8 :=
    BitVec.extractLsb'_append_eq_of_le (Nat.le_add_left 8 j)
  have h3 : (unbe32 s0 s1 s2 s3).extractLsb' 0 8 = s3 := hlast _ s3
  have h2 : (unbe32 s0 s1 s2 s3).extractLsb' 8 8 = s2 := (hrest _ s3 0).trans (hlast _ s2)
  have h1 : (unbe32 s0 s1 s2 s3).extractLsb' 16 8 = s1 :=
    (hrest _ s3 8).trans ((hrest _ s2 0).trans (hlast s0 s1))
  have h0 : (unbe32 s0 s1 s2 s3).extractLsb' 24 8 = s0 :=
    (hrest _ s3 16).trans ((hrest _ s2 8).trans ((hrest s0 s1 0).trans BitVec.extractLsb'_eq_self))
  rw [be32, h0, h1, h2, h3]

/-- Byte m of a word assembled by `unbe32`, counted from the most significant end. -/
theorem unbe32_extractLsb' (s0 s1 s2 s3 : Byte) (m : Fin 4) :
    (unbe32 s0 s1 s2 s3).extractLsb' (24 - 8 * m.val) 8 = [s0, s1, s2, s3][m] := by
  have hbyte := be32_getElem? (unbe32 s0 s1 s2 s3) m.isLt
  rw [be32_unbe32, List.getElem?_eq_getElem m.isLt] at hbyte
  exact (Option.some.inj hbyte).symm

end Sys2Proof.Machine
end

section
/-! PROOF. The finalizer (44_finalizer.md R160, R161, R163, R164): what FINALIZE answers on both sides of Finalized, the number of
zero bytes of the padding, and the DIGEST registers as the words of the final H. -/

namespace Sys2Proof.Machine

theorem exec_finalize_finalized {s : State} (h : s.inst.eng.phase = .finalized) : exec .finalize s = .next s := by
  rw [exec_eq, instExec_finalize_finalized h]

theorem exec_finalize_open {s : State} (h : s.inst.eng.phase ≠ .finalized) :
    exec .finalize s = .next (s.setEngine s.inst.eng.finalizeNow) := by
  rw [exec_eq, instExec, finalize_of_open h, State.setEngine]

/-- The engine after FINALIZE. -/
theorem exec_finalize_eng {s t : State} (h : exec .finalize s = .next t) : t.inst.eng = s.inst.eng.finalize := by
  rw [exec_eq] at h
  cases h
  rfl

/-- `compressAll` with each 64-byte group written as a drop and a take. -/
theorem compressAll_eq_fold (h : HashState) (bytes : List Byte) :
    compressAll h bytes =
      (List.range (bytes.length / 64)).foldl (fun g j => compress g ((bytes.drop (64 * j)).take 64)) h := by
  simp only [compressAll, slice, Nat.add_sub_cancel_left]

/-- Settles O24: the two cases of `exec` on FINALIZE, with the loop over the blocks written out. -/
theorem finalizeResult : Obligations.FinalizeResult :=
  fun s => ⟨exec_finalize_finalized, fun h => ⟨compressAll s.inst.eng.h (pad s.inst.eng.buf s.inst.eng.bitcnt),
    compressAll_eq_fold _ _, exec_finalize_open h⟩⟩

/-- Settles O26: any FINALIZE ends in Finalized, where FINALIZE answers the state it started in. -/
theorem finalizeWhileFinalizedIsNoOp : Obligations.FinalizeWhileFinalizedIsNoOp := by
  refine ⟨fun s => exec_finalize_finalized, fun s t ht => exec_finalize_finalized ?_⟩
  rw [exec_finalize_eng ht, engine_finalize_phase]

/-! The padding formula of R161. -/

/-- No smaller number of zero bytes brings the length to 56 mod 64. -/
theorem padZeros_least {len y : Nat} (h : y < padZeros len) : (len + 1 + y) % 64 ≠ 56 := by
  unfold padZeros at h
  omega

@[simp] theorem engine_finalize_bitcnt (e : Engine) : e.finalize.bitcnt = e.bitcnt := by
  by_cases h : e.phase = .finalized
  · rw [finalize_of_finalized h]
  · rw [finalize_of_open h, Engine.finalizeNow]

/-- Settles O27: z is `padZeros`, and both cases of FINALIZE keep BITCNT. -/
theorem paddingFormula : Obligations.PaddingFormula := by
  refine ⟨fun buf n hbuf => ⟨padZeros buf.length, rfl, padZeros_short, fun h => padZeros_long h hbuf,
    padZeros_mod buf.length, fun y => padZeros_least⟩, fun s t ht => ?_⟩
  rw [exec_finalize_eng ht, engine_finalize_bitcnt]

/-! The DIGEST registers of R163. -/

/-- Word k of the memoized digest of H is H[k]. -/
theorem memoWord_digestBytes (h : HashState) (k : Fin 5) :
    memoWord (digestBytes h) k = [h.h0, h.h1, h.h2, h.h3, h.h4][k] := by
  match k with
  | 0 | 1 | 2 | 3 | 4 => exact unbe32_bytes _

/-- Byte 4k + m of MEMO is byte m of its word k, counted from the most significant end. -/
theorem memo_getElem_eq_memoWord (memo : Vector Byte 20) (k : Fin 5) (m : Fin 4) :
    memo[4 * k.val + m.val] = (memoWord memo k).extractLsb' (24 - 8 * m.val) 8 := by
  rw [memoWord, unbe32_extractLsb']
  match m with
  | 0 | 1 | 2 | 3 => rfl

theorem digestReg_finalized {e : Engine} (h : e.phase = .finalized) (k : Fin 5) : digestReg k e = memoWord e.memo k :=
  if_pos h

theorem finalizeNow_memo (e : Engine) : e.finalizeNow.memo = digestBytes e.finalizeNow.h := rfl

theorem digestReg_finalizeNow (e : Engine) (k : Fin 5) :
    digestReg k e.finalizeNow = [e.finalizeNow.h.h0, e.finalizeNow.h.h1, e.finalizeNow.h.h2, e.finalizeNow.h.h3,
      e.finalizeNow.h.h4][k] := by
  rw [digestReg_finalized (finalizeNow_phase e), finalizeNow_memo, memoWord_digestBytes]

/-- Settles O29: DIGESTk reads word k of MEMO, which is the digest of the new H, and a word's bytes are MEMO's own. -/
theorem digestRegistersShowH : Obligations.DigestRegistersShowH := by
  intro s h
  refine ⟨_, exec_finalize_open h, finalizeNow_memo _, digestReg_finalizeNow _ 0, digestReg_finalizeNow _ 1,
    digestReg_finalizeNow _ 2, digestReg_finalizeNow _ 3, digestReg_finalizeNow _ 4, fun k m => ?_⟩
  rw [setEngine_eng, digestReg_finalized (finalizeNow_phase _)]
  exact memo_getElem_eq_memoWord _ k m

end Sys2Proof.Machine
end

section
/-! PROOF. Dispatch and register access (45_control.md R180, R181, R185, R187, R189): the step a command word takes by its
decoding, and what each register of the window reads. -/

namespace Sys2Proof.Machine

/-- A legal command word written: the next state. -/
theorem step_command_legal {s : State} {a : Access} {rest : List Access} {k : Nat} {w : Word} {j : Instance} {i : Instr}
    (hp : s.pending = a :: rest) (hc : a.command s = some (k, w)) (hk : s.instAt k = some j) (hd : decode w = .legal i) :
    step s = .next (State.setInst k (instExec i j) { s with pending := rest }) := by
  rw [step_command hp hc hk, wordEffect_legal hd]

/-- An illegal command word written: the next state, in every PHASE. -/
theorem step_command_illegal {s : State} {a : Access} {rest : List Access} {k : Nat} {w : Word} {j : Instance}
    {r : IllegalReason} (hp : s.pending = a :: rest) (hc : a.command s = some (k, w)) (hk : s.instAt k = some j)
    (hd : decode w = .illegal r) :
    step s = .next (State.setInst k
      { j with eng := { j.eng with ill := true }, faultLog := j.faultLog ++ [.illegalCommand w] }
      { s with pending := rest }) := by
  rw [step_command hp hc hk, wordEffect_illegal hd]

/-- Settles O45: the step replaces instance k by the one with ILL set and the event logged, so every other field is k's own and
every other instance stays. -/
theorem illegalCommandSetsOnlyIll : Obligations.IllegalCommandSetsOnlyIll := by
  intro s a rest k w r j hp hc hk hd
  have hthere : State.instAt { s with pending := rest } k ≠ none := by simp [hk]
  refine ⟨_, _, step_command_illegal hp hc hk hd, instAt_setInst_same _ _ k hthere, rfl, rfl, rfl, rfl, rfl, rfl, rfl, rfl,
    rfl, setInst_pending .., fun n hn => ?otherInstance⟩
  case otherInstance => rw [instAt_setInst_other _ _ _ _ hn, instAt_pending]

/-! The rows of R185's table that are more than one offset. -/

theorem regRead_digest (e : Engine) (i : Fin 5) : regRead (0x10 + 4 * i.val) e = digestReg i e := by
  match i with
  | 0 | 1 | 2 | 3 | 4 => rfl

theorem regRead_reserved {off : Nat} (h : 0x24 ≤ off) (e : Engine) : regRead off e = 0 := by
  unfold regRead
  split
  case h_9 => rfl
  all_goals omega

/-- Settles O49: the step logs `regRead`, whose value is read off the table of R185 row by row. -/
theorem registerReads : Obligations.RegisterReads := by
  intro s t rest k off j hp ht ho hk
  refine ⟨regRead off j.eng, step_read hp ht ho hk, ?cmd, ?status, ?bitcntHi, ?bitcntLo, fun i h => ?digest,
    fun h => regRead_reserved h j.eng⟩
  case digest =>
    rw [h, regRead_digest]
    rfl
  all_goals
    rintro rfl
    rfl

/-- Settles O51: the write leaves the instance it reaches as it is, and putting that back changes nothing. -/
theorem otherWritesIgnored : Obligations.OtherWritesIgnored := by
  intro s t rest k off v hp ht ho hoff hthere
  obtain ⟨j, hk⟩ := Option.ne_none_iff_exists'.mp hthere
  rw [step_write hp ht ho hk, if_neg hoff, setInst_instAt _ _ _ (by simpa using hk)]

/-- Settles O6: both sides run the command by `exec_eq`, and instance 0 is the one `exec` itself performs on. -/
theorem stepRunsTheDecodedCommand : Obligations.StepRunsTheDecodedCommand := by
  intro s a rest k v j hp hc hk
  refine ⟨fun i hd => ?onInstance, fun i hd hzero => ?onInstanceZero, fun r hd => step_command_illegal hp hc hk hd⟩
  case onInstance => rw [step_command_legal hp hc hk hd, exec_eq]
  case onInstanceZero =>
    subst hzero
    cases hk
    rw [step_command_legal hp hc rfl hd, exec_eq, State.setInst]

/-- Settles O12: RESET completes, and `Engine.reset` keeps no field of the engine it is given. -/
theorem resetResult : Obligations.ResetResult := exec_eq .reset

end Sys2Proof.Machine
end

section
/-! PROOF. The hexadecimal form of a digest (46_host_functions.md R200): `hexDigit` reads HEX, and byte i of the input gives
characters 2i and 2i + 1. -/

namespace Sys2Proof.Machine

/-- HEX has a character for each of the sixteen values of a nibble, so the default of `hexDigit` is never taken. -/
theorem getElem?_HEX_toNat (n : BitVec 4) : "0123456789abcdef".toList[n.toNat]? = some (hexDigit n) := by
  have hlt : n.toNat < "0123456789abcdef".toList.length := n.isLt
  calc "0123456789abcdef".toList[n.toNat]?
      _ = some ("0123456789abcdef".toList[n.toNat]) := List.getElem?_eq_getElem hlt
      _ = some (hexDigit n) := congrArg some (List.getElem_eq_getD '0')

@[simp] theorem toHexChars_cons (b : Byte) (bs : List Byte) :
    toHexChars (b :: bs) = hexDigit (b.extractLsb' 4 4) :: hexDigit (b.extractLsb' 0 4) :: toHexChars bs := rfl

theorem length_toHexChars (bs : List Byte) : (toHexChars bs).length = 2 * bs.length := by
  induction bs with
  | nil => rfl
  | cons b bs ih =>
    simp only [toHexChars_cons, List.length_cons, ih]
    omega

theorem toHexChars_getElem?_high (bs : List Byte) (i : Nat) :
    (toHexChars bs)[2 * i]? = bs[i]?.map fun b => hexDigit (b.extractLsb' 4 4) := by
  induction bs generalizing i with
  | nil => rfl
  | cons b bs ih =>
    cases i with
    | zero => rfl
    | succ i => exact ih i

theorem toHexChars_getElem?_low (bs : List Byte) (i : Nat) :
    (toHexChars bs)[2 * i + 1]? = bs[i]?.map fun b => hexDigit (b.extractLsb' 0 4) := by
  induction bs generalizing i with
  | nil => rfl
  | cons b bs ih =>
    cases i with
    | zero => rfl
    | succ i => exact ih i

/-- Settles O57: the length is twice the digest's, and each of byte i's two characters is the one HEX has for its nibble. -/
theorem hexRendering : Obligations.HexRendering := by
  intro d
  refine ⟨by rw [length_toHexChars, Vector.length_toList], fun i => ?digits⟩
  case digits =>
    have hbyte : d.toList[i.val]? = some d[i.val] := by simp
    constructor
    · rw [toHexChars_getElem?_high, hbyte, Option.map_some, getElem?_HEX_toNat]
    · rw [toHexChars_getElem?_low, hbyte, Option.map_some, getElem?_HEX_toNat]

end Sys2Proof.Machine
end

section
/-! PROOF. What a step does to one instance of the platform (60_exceptions.md R236): the instance an access does not reach stays,
and the one it reaches takes a command word, a hardware reset, or nothing but a read. -/

namespace Sys2Proof.Machine

/-- Settles O54: `step_next` names the one instance that is replaced, and every other place stays. -/
theorem instancesShareNoState : Obligations.InstancesShareNoState := by
  intro s t a rest k hp ht hreach
  obtain ⟨n, j, hn, -, rfl, -⟩ := step_next hp ht
  have hkn : k ≠ n := fun h => hreach (h ▸ hn)
  rw [instAt_setInst_other _ _ _ _ hkn, instAt_pending]

/-- A performed write of CMD is a command: it acts on the instance by its word. -/
theorem accessEffect_write_cmd {tg : Target} {s : State} {k : Nat} (h : resolve tg s = some (k, 0)) (width : Width) (v : Word)
    (j : Instance) : accessEffect (.write tg width v) s j = wordEffect v j := by
  simp only [accessEffect, h]

theorem accessEffect_write_other {tg : Target} {s : State} {k off : Nat} (h : resolve tg s = some (k, off)) (h0 : off ≠ 0)
    (width : Width) (v : Word) (j : Instance) : accessEffect (.write tg width v) s j = j := by
  simp only [accessEffect, h]
  split
  · rename_i heq
    cases heq
    exact absurd rfl h0
  · rfl

theorem accessEffect_read {tg : Target} {s : State} {k off : Nat} (h : resolve tg s = some (k, off)) (width : Width)
    (j : Instance) : accessEffect (.read tg width) s j = { j with reads := j.reads ++ [regRead off j.eng] } := by
  simp only [accessEffect, h]

/-- WHAT A STEP CAN DO TO INSTANCE k: run a command word written to its CMD register, reset it by hardware, or leave its
architectural state and its fault log. -/
theorem step_instAt_cases {s t : State} {a : Access} {rest : List Access} {k : Nat} {j : Instance}
    (hp : s.pending = a :: rest) (ht : step s = .next t) (hk : s.instAt k = some j) :
    ∃ u, t.instAt k = some u ∧
      ((∃ w, a.command s = some (k, w) ∧ u = wordEffect w j) ∨
        (a = .hardReset k ∧ u = { j with eng := .powerOn }) ∨
        (u.eng = j.eng ∧ u.faultLog = j.faultLog)) := by
  by_cases hreach : a.reaches s = some k
  case neg => exact ⟨j, (instancesShareNoState s t a rest k hp ht hreach).trans hk, .inr (.inr ⟨rfl, rfl⟩)⟩
  obtain ⟨n, i, hn, hi, rfl, hport⟩ := step_next hp ht
  cases hreach.symm.trans hn
  cases hk.symm.trans hi
  refine ⟨_, instAt_setInst_same _ _ _ (by simp [hk]), ?_⟩
  cases a with
  | write tg width v =>
    obtain ⟨rfl, off, hr, -⟩ := hport tg width v (.inl rfl)
    by_cases h0 : off = 0
    · subst h0
      exact .inl ⟨v, by simp only [Access.command, hr], accessEffect_write_cmd hr .word v j⟩
    · rw [accessEffect_write_other hr h0]
      exact .inr (.inr ⟨rfl, rfl⟩)
  | read tg width =>
    obtain ⟨-, off, hr, -⟩ := hport tg width 0 (.inr rfl)
    rw [accessEffect_read hr]
    exact .inr (.inr ⟨rfl, rfl⟩)
  | hardReset m =>
    cases hn
    exact .inr (.inl ⟨rfl, rfl⟩)

/-- Induction over a run: what every step keeps, a run keeps. -/
theorem runSteps_keeps {P : State → Prop} (hstep : ∀ s t, P s → step s = .next t → P t) (n : Nat) :
    ∀ {s t : State}, P s → runSteps n s = .next t → P t := by
  induction n with
  | zero =>
    intro s t hs ht
    cases ht
    exact hs
  | succ n ih =>
    intro s t hs ht
    rw [runSteps] at ht
    split at ht
    case h_1 u hu => exact ih (hstep s u hs hu) ht
    case h_2 => cases ht
    case h_3 => cases ht

end Sys2Proof.Machine
end

section
/-! PROOF. The sticky bits ILL and SEQ (60_exceptions.md R227): no access but a reset clears them, and no command reads them. -/

namespace Sys2Proof.Machine

@[simp] theorem engine_ingest_ill (e : Engine) (bytes : List Byte) : (e.ingest bytes).ill = e.ill := pushAll_ill e bytes
@[simp] theorem engine_ingest_seq (e : Engine) (bytes : List Byte) : (e.ingest bytes).seq = e.seq := pushAll_seq e bytes

@[simp] theorem engine_finalize_ill (e : Engine) : e.finalize.ill = e.ill := by
  unfold Engine.finalize
  split <;> rfl

@[simp] theorem engine_finalize_seq (e : Engine) : e.finalize.seq = e.seq := by
  unfold Engine.finalize
  split <;> rfl

/-- The sticky bits that are 1 in e are 1 in e'. -/
def Engine.StickyLe (e e' : Engine) : Prop := (e.ill = true → e'.ill = true) ∧ (e.seq = true → e'.seq = true)

/-- Every command but RESET keeps the bits that are set. -/
theorem instExec_stickyLe {i : Instr} (hi : i ≠ .reset) (j : Instance) : j.eng.StickyLe (instExec i j).eng := by
  cases i with
  | reset => exact absurd rfl hi
  | ingest bytes =>
    by_cases h : j.eng.phase = .finalized
    · rw [instExec_ingest_finalized h]
      exact ⟨id, fun _ => rfl⟩
    · simp [instExec_ingest_open h, Engine.StickyLe]
  | finalize => simp [instExec, Engine.StickyLe]

theorem wordEffect_stickyLe {w : Word} (hw : decode w ≠ .legal .reset) (j : Instance) :
    j.eng.StickyLe (wordEffect w j).eng := by
  cases hd : decode w with
  | legal i =>
    rw [wordEffect_legal hd]
    exact instExec_stickyLe (fun h => hw (h ▸ hd)) j
  | illegal r =>
    rw [wordEffect_illegal hd]
    exact ⟨fun _ => rfl, id⟩

/-- An access that is no reset of instance k keeps the bits that are set in it. -/
theorem step_stickyLe {s t : State} {a : Access} {rest : List Access} {k : Nat} {j : Instance}
    (hp : s.pending = a :: rest) (ht : step s = .next t) (hk : s.instAt k = some j) (hno : ¬ a.resets k s) :
    ∃ u, t.instAt k = some u ∧ j.eng.StickyLe u.eng := by
  obtain ⟨u, hu, ⟨w, hc, rfl⟩ | ⟨ha, -⟩ | ⟨heng, -⟩⟩ := step_instAt_cases hp ht hk
  · exact ⟨_, hu, wordEffect_stickyLe (fun hd => hno (.inr ⟨w, hc, hd⟩)) j⟩
  · exact absurd (.inl ha) hno
  · exact ⟨u, hu, by rw [heng]; exact ⟨id, id⟩⟩

/-- Either reset of instance k completes and leaves it with both bits clear. -/
theorem step_resets {s : State} {a : Access} {rest : List Access} {k : Nat} {j : Instance}
    (hp : s.pending = a :: rest) (hk : s.instAt k = some j) (hreset : a.resets k s) :
    ∃ t u, step s = .next t ∧ t.instAt k = some u ∧ u.eng.ill = false ∧ u.eng.seq = false := by
  have hthere : State.instAt { s with pending := rest } k ≠ none := by simp [hk]
  obtain rfl | ⟨w, hc, hd⟩ := hreset
  · exact ⟨_, _, step_hardReset hp hk, instAt_setInst_same _ _ _ hthere, rfl, rfl⟩
  · exact ⟨_, _, step_command_legal hp hc hk hd, instAt_setInst_same _ _ _ hthere, rfl, rfl⟩

/-- The engine with other sticky bits. -/
def Engine.withSticky (ill seq : Bool) (e : Engine) : Engine := { e with ill := ill, seq := seq }

theorem push_withSticky (ill seq : Bool) (e : Engine) (x : Byte) :
    (e.withSticky ill seq).push x = (e.push x).withSticky ill seq := by
  by_cases h : e.buf.length = 63
  · rw [push_full e x h, push_full (e.withSticky ill seq) x h]
    rfl
  · rw [push_short e x h, push_short (e.withSticky ill seq) x h]
    rfl

theorem pushAll_withSticky (ill seq : Bool) (bytes : List Byte) : ∀ e : Engine,
    (e.withSticky ill seq).pushAll bytes = (e.pushAll bytes).withSticky ill seq := by
  induction bytes with
  | nil => exact fun e => rfl
  | cons x xs ih =>
    intro e
    rw [pushAll_cons, push_withSticky, ih, pushAll_cons]

theorem engine_ingest_withSticky (ill seq : Bool) (bytes : List Byte) (e : Engine) :
    (e.withSticky ill seq).ingest bytes = (e.ingest bytes).withSticky ill seq := by
  rw [Engine.ingest, pushAll_withSticky]
  rfl

theorem engine_finalize_withSticky (ill seq : Bool) (e : Engine) :
    (e.withSticky ill seq).finalize = e.finalize.withSticky ill seq := by
  by_cases h : e.phase = .finalized
  · rw [finalize_of_finalized h, finalize_of_finalized (e := e.withSticky ill seq) h]
  · rw [finalize_of_open h, finalize_of_open (e := e.withSticky ill seq) h]
    rfl

/-- A command on an engine with other sticky bits ends in the same engine but for the sticky bits. -/
theorem instExec_withSticky (i : Instr) (ill seq : Bool) (j : Instance) :
    ∃ ill' seq', (instExec i { j with eng := j.eng.withSticky ill seq }).eng = (instExec i j).eng.withSticky ill' seq' := by
  cases i with
  | reset => exact ⟨false, false, rfl⟩
  | ingest bytes =>
    by_cases h : j.eng.phase = .finalized
    · rw [instExec_ingest_finalized h, instExec_ingest_finalized (j := { j with eng := j.eng.withSticky ill seq }) h]
      exact ⟨ill, true, rfl⟩
    · rw [instExec_ingest_open h, instExec_ingest_open (j := { j with eng := j.eng.withSticky ill seq }) h]
      exact ⟨ill, seq, engine_ingest_withSticky ill seq bytes j.eng⟩
  | finalize => exact ⟨ill, seq, engine_finalize_withSticky ill seq j.eng⟩

/-- Settles O46: a set bit is kept by every effect but a reset, both resets write 0, and commands commute with a change of the two
bits. -/
theorem stickyBitsStayAndDoNotStop : Obligations.StickyBitsStayAndDoNotStop := by
  refine ⟨fun s t a rest k j => step_stickyLe, fun s a rest k j => step_resets, fun s i ill seq => ?normally⟩
  case normally =>
    obtain ⟨ill', seq', h⟩ := instExec_withSticky i ill seq s.inst
    refine ⟨_, _, exec_eq i s, exec_eq i _, ?_⟩
    rw [Engine.withSticky] at h
    rw [h]
    exact ⟨rfl, rfl, rfl, rfl, rfl⟩

end Sys2Proof.Machine
end

section
/-! PROOF. Every legal command word is the encoding of its command (30_encoding.md R74): decoding drops no bit of it. -/

namespace Sys2Proof

/-- A format Z word is legal only with bits 27:0 zero (R71). -/
theorem decodeFormatZ_zeroField {i k : Instr} {w : Word} (h : decodeFormatZ i w = .legal k) : zeroField w = 0 := by
  by_contra hz
  rw [decodeFormatZ, if_neg hz] at h
  cases h

/-- The payload loses nothing of data byte j where the byte is zero if j is not below N. -/
theorem payloadByte_payload {w : Word} {j : Nat}
    (hunused : (countField w).toNat ≤ j → [dataField0 w, dataField1 w, dataField2 w].getD j 0 = 0) :
    payloadByte (payload w) j = [dataField0 w, dataField1 w, dataField2 w].getD j 0 := by
  obtain hj | hj := Nat.lt_or_ge j (payload w).length
  · rw [payloadByte, List.getD_eq_getElem?_getD, payload_getElem? hj, ← List.getD_eq_getElem?_getD]
  · rw [payloadByte, List.getD_eq_default _ _ hj]
    exact (hunused (payload_length w ▸ hj)).symm

/-- A format I word that `decodeIngest` finds legal is the encoding of its payload: it has no byte beyond N. -/
theorem encode_payload_of_legal {w : Word} {i : Instr} (hop : opField w = 2) (h : decodeIngest w = .legal i) :
    encode (.ingest (payload w)) = w := by
  have hlegal : ¬ ∃ r, decodeIngest w = .illegal r := by simp [h]
  rw [decodeIngest_illegal_iff] at hlegal
  push Not at hlegal
  obtain ⟨hrsv, h0, h1, h2⟩ := hlegal
  have p0 : payloadByte (payload w) 0 = dataField0 w := payloadByte_payload fun hn => h0 (Nat.lt_succ_of_le hn)
  have p1 : payloadByte (payload w) 1 = dataField1 w := payloadByte_payload fun hn => h1 (Nat.lt_succ_of_le hn)
  have p2 : payloadByte (payload w) 2 = dataField2 w := payloadByte_payload fun hn => h2 (Nat.lt_succ_of_le hn)
  rw [encode, payload_length, BitVec.ofNat_toNat, BitVec.setWidth_eq, p0, p1, p2]
  exact (word_eq_formatI w hop hrsv).symm

/-- Every legal command has exactly one word (R74). -/
theorem encode_of_decode {w : Word} {i : Instr} (h : decode w = .legal i) : encode i = w := by
  obtain hop | hop | hop | hop := opField_cases w
  · rw [decode_of_op_reset hop] at h
    cases decodeFormatZ_legal h
    rw [word_eq_op_zero w, hop, decodeFormatZ_zeroField h]
    rfl
  · rw [decode_of_op_ingest hop] at h
    cases decodeIngest_legal h
    exact encode_payload_of_legal hop h
  · rw [decode_of_op_finalize hop] at h
    cases decodeFormatZ_legal h
    rw [word_eq_op_zero w, hop, decodeFormatZ_zeroField h]
    rfl
  · rw [decode_of_op_reserved hop] at h
    cases h

end Sys2Proof
end

section
/-! PROOF. The fault log (60_exceptions.md R228): the event of a SequenceError carries the word that was written, a step adds at
most one event, and an event that is logged stays. -/

namespace Sys2Proof.Machine

/-- The fault log `new` is `old`, or `old` and one event after it. -/
def LogGrows (old new : List Event) : Prop := new = old ∨ ∃ ev, new = old ++ [ev]

theorem LogGrows.ne_nil {old new : List Event} (h : LogGrows old new) (hold : old ≠ []) : new ≠ [] := by
  obtain rfl | ⟨ev, rfl⟩ := h
  · exact hold
  · simp

theorem instExec_logGrows (i : Instr) (j : Instance) : LogGrows j.faultLog (instExec i j).faultLog := by
  cases i with
  | reset => exact .inl rfl
  | ingest bytes =>
    by_cases h : j.eng.phase = .finalized
    · rw [instExec_ingest_finalized h]
      exact .inr ⟨_, rfl⟩
    · rw [instExec_ingest_open h]
      exact .inl rfl
  | finalize => exact .inl rfl

theorem wordEffect_logGrows (w : Word) (j : Instance) : LogGrows j.faultLog (wordEffect w j).faultLog := by
  cases hd : decode w with
  | legal i =>
    rw [wordEffect_legal hd]
    exact instExec_logGrows i j
  | illegal r =>
    rw [wordEffect_illegal hd]
    exact .inr ⟨_, rfl⟩

/-- A step adds at most one event to an instance's fault log, and takes none away. -/
theorem step_logGrows {s t : State} {k : Nat} {j : Instance} (ht : step s = .next t) (hk : s.instAt k = some j) :
    ∃ u, t.instAt k = some u ∧ LogGrows j.faultLog u.faultLog := by
  cases hp : s.pending with
  | nil =>
    rw [step_nil hp] at ht
    cases ht
    exact ⟨j, hk, .inl rfl⟩
  | cons a rest =>
    obtain ⟨u, hu, ⟨w, -, rfl⟩ | ⟨-, rfl⟩ | ⟨-, hlog⟩⟩ := step_instAt_cases hp ht hk
    · exact ⟨_, hu, wordEffect_logGrows w j⟩
    · exact ⟨_, hu, .inl rfl⟩
    · exact ⟨u, hu, .inl hlog⟩

/-- Instance k has an event logged. -/
def State.Faulted (k : Nat) (s : State) : Prop := ∃ j, s.instAt k = some j ∧ j.faultLog ≠ []

theorem step_keeps_faulted (k : Nat) (s t : State) (hs : s.Faulted k) (ht : step s = .next t) : t.Faulted k := by
  obtain ⟨j, hk, hlog⟩ := hs
  obtain ⟨u, hu, hgrows⟩ := step_logGrows ht hk
  exact ⟨u, hu, hgrows.ne_nil hlog⟩

theorem State.Faulted.not_successfulEnd {k : Nat} {s : State} (h : s.Faulted k) : ¬ s.SuccessfulEnd k := by
  rintro ⟨-, hempty⟩
  obtain ⟨j, hk, hlog⟩ := h
  rw [hk] at hempty
  exact hlog (Option.some.inj hempty)

/-- A legal INGEST word in Finalized is logged with that word, which `execIngest` had to encode again (R228). -/
theorem wordEffect_sequenceError {w : Word} {bytes : List Byte} {j : Instance} (hd : decode w = .legal (.ingest bytes))
    (hfin : j.eng.phase = .finalized) : (wordEffect w j).faultLog = j.faultLog ++ [.sequenceError w] := by
  rw [wordEffect_legal hd, instExec_ingest_finalized hfin, encode_of_decode hd]

/-- Settles O47: the two events log the word written (`wordEffect_illegal`, `wordEffect_sequenceError`), a step only extends the
log, so a faulted instance stays faulted through every run. -/
theorem faultLogRecordsAndIsNeverCleared : Obligations.FaultLogRecordsAndIsNeverCleared := by
  refine ⟨fun s a rest k w j hp hc hk => ?recorded, fun s t k j => step_logGrows, fun n s t k j hk hlog ht => ?faulted⟩
  case recorded =>
    have hthere : State.instAt { s with pending := rest } k ≠ none := by simp [hk]
    exact ⟨_, _, step_command hp hc hk, instAt_setInst_same _ _ _ hthere,
      fun r hd => by rw [wordEffect_illegal hd], fun bytes hd hfin => wordEffect_sequenceError hd hfin⟩
  case faulted => exact (runSteps_keeps (step_keeps_faulted k) n ⟨j, hk, hlog⟩ ht).not_successfulEnd

end Sys2Proof.Machine
end

section
/-! PROOF. Hardware reset (70_reset_and_hazards.md R250): it leaves the engine that RESET leaves. -/

namespace Sys2Proof.Machine

/-- RESET assigns every state of R21, so it leaves the hardware's reset values whatever engine it is given. -/
theorem engine_reset_eq_powerOn (e : Engine) : e.reset = .powerOn := rfl

theorem instExec_reset (j : Instance) : instExec .reset j = { j with eng := .powerOn } :=
  congrArg (fun e => { j with eng := e }) (engine_reset_eq_powerOn j.eng)

/-- Settles O13: hardware reset puts `Engine.powerOn` in place k, which is the engine RESET leaves (`instExec_reset`). -/
theorem hardwareResetWritesTheResetValues : Obligations.HardwareResetWritesTheResetValues := by
  intro s rest k j hp hk
  have hstep := step_hardReset hp hk
  refine ⟨hstep, _, exec_eq .reset _, ?sameAsReset⟩
  case sameAsReset => rw [hstep, instExec_reset]

end Sys2Proof.Machine
end

section
/-! PROOF. Encoding and decoding are inverse (30_encoding.md R74): a well-formed command decodes from its encoding, and a
legal word is the encoding of a well-formed command. -/

namespace Sys2Proof

/-- A format I word that no bullet of R76 finds illegal carries its payload. -/
theorem decodeIngest_of_not_illegal {w : Word} (h : ¬ ∃ r, decodeIngest w = .illegal r) :
    decodeIngest w = .legal (.ingest (payload w)) := by
  cases hd : decodeIngest w with
  | legal i => rw [decodeIngest_legal hd]
  | illegal r => exact absurd ⟨r, hd⟩ h

/-- A payload byte at or beyond the length is zero (R72). -/
theorem payloadByte_unused {bytes : List Byte} {j : Nat} (h : bytes.length ≤ j) : payloadByte bytes j = 0 :=
  List.getD_eq_default bytes 0 h

/-- Of at most three bytes, the three payload bytes of the word cut at N are the bytes themselves. -/
theorem take_payloadBytes {bytes : List Byte} (h : bytes.length ≤ 3) :
    [payloadByte bytes 0, payloadByte bytes 1, payloadByte bytes 2].take bytes.length = bytes := by
  match bytes, h with
  | [], _ | [_], _ | [_, _], _ | [_, _, _], _ => rfl

/-- An INGEST of at most three bytes decodes from its encoding: N keeps the length, and the bytes beyond it are zero. -/
theorem decode_encode_ingest {bytes : List Byte} (h : bytes.length ≤ 3) :
    decode (encode (.ingest bytes)) = .legal (.ingest bytes) := by
  have hcount : (BitVec.ofNat 2 bytes.length).toNat = bytes.length := Nat.mod_eq_of_lt (Nat.lt_succ_of_le h)
  have hlegal : ¬ ∃ r, decodeIngest (encode (.ingest bytes)) = .illegal r := by
    rw [decodeIngest_illegal_iff, encode]
    simp only [rsvField_formatI, countField_formatI, dataField0_formatI, dataField1_formatI, dataField2_formatI,
      BitVec.lt_def, hcount]
    rintro (hrsv | ⟨hn, hne⟩ | ⟨hn, hne⟩ | ⟨hn, hne⟩)
    · exact hrsv rfl
    all_goals exact hne (payloadByte_unused (Nat.le_of_lt_succ hn))
  have hpayload : payload (encode (.ingest bytes)) = bytes := by
    simp only [encode, payload, countField_formatI, dataField0_formatI, dataField1_formatI, dataField2_formatI, hcount]
    exact take_payloadBytes h
  calc decode (encode (.ingest bytes))
      _ = decodeIngest (encode (.ingest bytes)) := decode_formatI ..
      _ = .legal (.ingest bytes) := by rw [decodeIngest_of_not_illegal hlegal, hpayload]

/-- Settles O2: RESET and FINALIZE are fixed words, and INGEST is `decode_encode_ingest`. -/
theorem decodeEncodeRoundTrip : Obligations.DecodeEncodeRoundTrip := by
  intro i hi
  cases i with
  | reset => decide
  | ingest bytes => exact decode_encode_ingest (of_decide_eq_true hi)
  | finalize => decide

/-- What decodes is well formed: N is a field of two bits. -/
theorem wellFormed_of_decode {w : Word} {i : Instr} (h : decode w = .legal i) : i.wellFormed = true := by
  cases i with
  | reset | finalize => rfl
  | ingest bytes =>
    cases decode_ingest_payload h
    exact decide_eq_true (by rw [payload_length]; exact Nat.le_of_lt_succ (countField w).isLt)

/-- Settles O3: what decodes is well formed, and it encodes to the word it was decoded from (`encode_of_decode`). -/
theorem legalWordIsTheEncoding : Obligations.LegalWordIsTheEncoding :=
  fun _ _ h => ⟨wellFormed_of_decode h, (encode_of_decode h).symm⟩

/-- Settles O1: fixed words, so the decoder computes each row of the table. -/
theorem sampleWordsDecode : Obligations.SampleWordsDecode := by
  unfold Obligations.SampleWordsDecode
  decide

end Sys2Proof

namespace Sys2Proof.Machine

/-! The expansion of INGEST.BYTES (R79). -/

theorem flatten_ingestChunks : ∀ bytes : List Byte, (ingestChunks bytes).flatten = bytes
  | b0 :: b1 :: b2 :: rest => congrArg ([b0, b1, b2] ++ ·) (flatten_ingestChunks rest)
  | [] | [_] | [_, _] => rfl

theorem length_le_three_of_mem_ingestChunks : ∀ {bytes chunk : List Byte}, chunk ∈ ingestChunks bytes → chunk.length ≤ 3
  | _ :: _ :: _ :: _, chunk, h => by
    obtain rfl | h := List.mem_cons.mp h
    · exact Nat.le_refl 3
    · exact length_le_three_of_mem_ingestChunks h
  | [_], _, h | [_, _], _, h => by
    cases List.mem_singleton.mp h
    simp

theorem length_ingestChunks : ∀ bytes : List Byte, (ingestChunks bytes).length = (bytes.length + 2) / 3
  | _ :: _ :: _ :: rest => by
    rw [ingestChunks, List.length_cons, length_ingestChunks rest]
    simp only [List.length_cons]
    omega
  | [] | [_] | [_, _] => by simp [ingestChunks]

theorem ingestPayloads_nil : ingestPayloads [] = [[]] := rfl

theorem ingestPayloads_of_ne_nil {bytes : List Byte} (h : bytes ≠ []) : ingestPayloads bytes = ingestChunks bytes := if_neg h

theorem flatten_ingestPayloads (bytes : List Byte) : (ingestPayloads bytes).flatten = bytes := by
  by_cases h : bytes = []
  · rw [h, ingestPayloads_nil]
    rfl
  · rw [ingestPayloads_of_ne_nil h, flatten_ingestChunks]

theorem length_ingestPayloads (bytes : List Byte) :
    (ingestPayloads bytes).length = if bytes = [] then 1 else (bytes.length + 2) / 3 := by
  by_cases h : bytes = []
  · rw [h, ingestPayloads_nil]
    rfl
  · rw [ingestPayloads_of_ne_nil h, if_neg h, length_ingestChunks]

/-- Each word of the expansion decodes to the INGEST it was made for. -/
theorem decode_encode_ingestPayloads {bytes chunk : List Byte} (h : chunk ∈ ingestPayloads bytes) :
    decode (encode (.ingest chunk)) = .legal (.ingest chunk) := by
  apply decode_encode_ingest
  by_cases hnil : bytes = []
  · rw [hnil, ingestPayloads_nil, List.mem_singleton] at h
    simp [h]
  · rw [ingestPayloads_of_ne_nil hnil] at h
    exact length_le_three_of_mem_ingestChunks h

/-- Settles O56: the words encode `ingestPayloads`, whose parts are short enough to decode again. -/
theorem ingestBytesExpansion : Obligations.IngestBytesExpansion := by
  intro bytes
  refine ⟨by rw [ingestWords, List.length_map, length_ingestPayloads], ingestPayloads bytes, flatten_ingestPayloads bytes,
    ?decoded⟩
  case decoded =>
    rw [ingestWords, List.map_map]
    exact List.map_congr_left fun _ => decode_encode_ingestPayloads

end Sys2Proof.Machine
end

section
/-! PROOF. Induction over the engines of the platform: what the reset values meet, and INGEST, FINALIZE and a change of the sticky
bits keep, every step keeps in every engine. -/

namespace Sys2Proof.Machine

/-- P is met by the reset values, and kept by each way an engine can change (R140, R160, R220, R221). -/
structure EngineInvariant (P : Engine → Prop) : Prop where
  powerOn : P .powerOn
  ingest : ∀ e bytes, e.phase ≠ .finalized → P e → P (e.ingest bytes)
  finalizeNow : ∀ e, e.phase ≠ .finalized → P e → P e.finalizeNow
  withSticky : ∀ e ill seq, P e → P (e.withSticky ill seq)

/-- P of the architectural state of every instance of the platform. -/
def State.AllEngines (P : Engine → Prop) (s : State) : Prop := ∀ k j, s.instAt k = some j → P j.eng

theorem instExec_keeps {P : Engine → Prop} (hP : EngineInvariant P) (i : Instr) {j : Instance} (hj : P j.eng) :
    P (instExec i j).eng := by
  cases i with
  | reset => exact hP.powerOn
  | ingest bytes =>
    by_cases h : j.eng.phase = .finalized
    · rw [instExec_ingest_finalized h]
      exact hP.withSticky j.eng j.eng.ill true hj
    · rw [instExec_ingest_open h]
      exact hP.ingest j.eng bytes h hj
  | finalize =>
    by_cases h : j.eng.phase = .finalized
    · rwa [instExec_finalize_finalized h]
    · rw [instExec, finalize_of_open h]
      exact hP.finalizeNow j.eng h hj

theorem wordEffect_keeps {P : Engine → Prop} (hP : EngineInvariant P) (w : Word) {j : Instance} (hj : P j.eng) :
    P (wordEffect w j).eng := by
  cases hd : decode w with
  | legal i =>
    rw [wordEffect_legal hd]
    exact instExec_keeps hP i hj
  | illegal r =>
    rw [wordEffect_illegal hd]
    exact hP.withSticky j.eng true j.eng.seq hj

/-- A step adds no instance to the platform. -/
theorem instAt_of_step {s t : State} {a : Access} {rest : List Access} {k : Nat} {u : Instance}
    (hp : s.pending = a :: rest) (ht : step s = .next t) (hu : t.instAt k = some u) : ∃ j, s.instAt k = some j := by
  obtain ⟨n, j, -, hn, rfl, -⟩ := step_next hp ht
  by_cases hkn : k = n
  · exact ⟨j, hkn ▸ hn⟩
  · rw [instAt_setInst_other _ _ _ _ hkn, instAt_pending] at hu
    exact ⟨u, hu⟩

/-- Every step keeps an engine invariant in every instance. -/
theorem step_keeps_allEngines {P : Engine → Prop} (hP : EngineInvariant P) {s t : State} (hs : s.AllEngines P)
    (ht : step s = .next t) : t.AllEngines P := by
  cases hp : s.pending with
  | nil =>
    rw [step_nil hp] at ht
    cases ht
    exact hs
  | cons a rest =>
    intro k u hu
    obtain ⟨j, hj⟩ := instAt_of_step hp ht hu
    obtain ⟨v, hv, hcases⟩ := step_instAt_cases hp ht hj
    cases hu.symm.trans hv
    obtain ⟨w, -, rfl⟩ | ⟨-, rfl⟩ | ⟨heng, -⟩ := hcases
    · exact wordEffect_keeps hP w (hs k j hj)
    · exact hP.powerOn
    · rw [heng]
      exact hs k j hj

/-- Instance 0 and the further ones are all there are. -/
theorem allEngines_iff {P : Engine → Prop} {s : State} :
    s.AllEngines P ↔ P s.inst.eng ∧ ∀ i ∈ s.others, P i.eng := by
  constructor
  · intro h
    refine ⟨h 0 s.inst rfl, fun i hi => ?_⟩
    obtain ⟨k, hk⟩ := List.mem_iff_getElem?.mp hi
    exact h (k + 1) i hk
  · rintro ⟨hzero, hothers⟩ k j hj
    cases k with
    | zero =>
      cases hj
      exact hzero
    | succ k => exact hothers j (List.mem_of_getElem? hj)

end Sys2Proof.Machine
end

section
/-! PROOF. The state invariants of 10_state.md R28 and R27: each way an engine can change keeps them. -/

namespace Sys2Proof.Machine

@[simp] theorem engine_ingest_memo (e : Engine) (bytes : List Byte) : (e.ingest bytes).memo = e.memo := pushAll_memo e bytes

@[simp] theorem engine_ingest_bitcnt (e : Engine) (bytes : List Byte) :
    (e.ingest bytes).bitcnt = e.bitcnt + BitVec.ofNat 64 (8 * bytes.length) := rfl

theorem engine_powerOn_inv : Engine.powerOn.Inv where
  bufShort := Nat.zero_le 63
  freshClean _ := ⟨rfl, rfl, rfl⟩
  finalizedDigest h := nomatch h
  accumulatingCount h := nomatch h
  memoZero _ := rfl

/-- Item 4 of R28 on either side of the first INGEST: Fresh has counted no byte. -/
theorem Engine.Inv.count_of_open {e : Engine} (h : e.Inv) (hopen : e.phase ≠ .finalized) :
    ∃ n : Nat, e.bitcnt = BitVec.ofNat 64 (8 * n) ∧ e.buf.length = n % 64 := by
  cases hphase : e.phase with
  | fresh =>
    obtain ⟨-, hbuf, hbitcnt⟩ := h.freshClean hphase
    exact ⟨0, hbitcnt, by rw [hbuf]; rfl⟩
  | accumulating => exact h.accumulatingCount hphase
  | finalized => exact absurd hphase hopen

theorem length_pushAll_buf {e : Engine} (h : e.buf.length ≤ 63) (bytes : List Byte) :
    (e.pushAll bytes).buf.length = (e.buf.length + bytes.length) % 64 := by
  rw [pushAll_eq bytes e h, blockRest_length, List.length_append]

theorem Engine.Inv.ingest {e : Engine} (h : e.Inv) (hopen : e.phase ≠ .finalized) (bytes : List Byte) :
    (e.ingest bytes).Inv where
  bufShort := pushAll_buf_short h.bufShort bytes
  freshClean hphase := nomatch hphase
  finalizedDigest hphase := nomatch hphase
  accumulatingCount _ := by
    obtain ⟨n, hbitcnt, hbuf⟩ := h.count_of_open hopen
    refine ⟨n + bytes.length, ?_, ?_⟩
    · rw [engine_ingest_bitcnt, hbitcnt, ← BitVec.ofNat_add, Nat.mul_add]
    · rw [engine_ingest_buf, length_pushAll_buf h.bufShort, hbuf, Nat.mod_add_mod]
  memoZero _ := (engine_ingest_memo e bytes).trans (h.memoZero hopen)

theorem engine_finalizeNow_inv (e : Engine) : e.finalizeNow.Inv where
  bufShort := Nat.zero_le 63
  freshClean hphase := nomatch hphase
  finalizedDigest _ := ⟨rfl, rfl⟩
  accumulatingCount hphase := nomatch hphase
  memoZero hphase := absurd rfl hphase

/-- No invariant speaks of the sticky bits. -/
theorem Engine.Inv.withSticky {e : Engine} (h : e.Inv) (ill seq : Bool) : (e.withSticky ill seq).Inv :=
  ⟨h.bufShort, h.freshClean, h.finalizedDigest, h.accumulatingCount, h.memoZero⟩

theorem engineInvariant_inv : EngineInvariant Engine.Inv where
  powerOn := engine_powerOn_inv
  ingest _ bytes hopen h := h.ingest hopen bytes
  finalizeNow e _ _ := engine_finalizeNow_inv e
  withSticky _ ill seq h := h.withSticky ill seq

/-- Settles O41: R28 is an engine invariant, and `State.Inv` asks it of every engine. -/
theorem stepKeepsInvariants : Obligations.StepKeepsInvariants :=
  fun _ _ hs ht => allEngines_iff.mp (step_keeps_allEngines engineInvariant_inv (allEngines_iff.mpr hs) ht)

/-- Every further instance of the reset state is as the first. -/
theorem eq_powerOn_of_mem_reset_others {i : Instance} (h : i ∈ State.reset.others) : i = .powerOn :=
  List.eq_of_mem_replicate h

/-- Settles O42: every engine of the reset state is `Engine.powerOn`. -/
theorem resetMeetsInvariants : Obligations.ResetMeetsInvariants := by
  refine ⟨engine_powerOn_inv, fun i hi => ?_⟩
  rw [eq_powerOn_of_mem_reset_others hi]
  exact engine_powerOn_inv

/-- Settles O14: the values are those of `Engine.powerOn`, and the further instances are copies of it. -/
theorem resetStateValues : Obligations.ResetStateValues :=
  ⟨rfl, rfl, rfl, rfl, fun _ => eq_powerOn_of_mem_reset_others, congrArg (· + 1) List.length_replicate⟩

end Sys2Proof.Machine
end

section
/-! PROOF. The message an instance holds (43_accumulator.md R140 to R144, 44_finalizer.md R167): INGEST appends to it in any
split, and FINALIZE memoizes its digest. -/

namespace Sys2Proof.Machine

/-- INGEST field by field: the whole blocks of the buffer and the payload are compressed, the rest is buffered. -/
theorem engine_ingest_eq {e : Engine} (h : e.buf.length ≤ 63) (bytes : List Byte) :
    e.ingest bytes = { e with
      h := compressAll e.h (e.buf ++ bytes)
      buf := blockRest (e.buf ++ bytes)
      bitcnt := e.bitcnt + BitVec.ofNat 64 (8 * bytes.length)
      phase := .accumulating } := by
  rw [Engine.ingest, pushAll_eq bytes e h]

/-! One INGEST word at every buffer length. -/

/-- The first block of a sequence that reaches one but not two. -/
theorem compressAll_one_block (h : HashState) {s : List Byte} (h64 : 64 ≤ s.length) (h128 : s.length < 128) :
    compressAll h s = compress h (s.take 64) := by
  have hfirst : (s.take 64).length = 64 := by rw [List.length_take]; omega
  have hrest : (s.drop 64).length < 64 := by rw [List.length_drop]; omega
  calc compressAll h s
      _ = compressAll h (s.take 64 ++ s.drop 64) := by rw [List.take_append_drop]
      _ = compressAll (compress h (s.take 64)) (s.drop 64) := compressAll_block_append h hfirst _
      _ = compress h (s.take 64) := compressAll_short _ hrest

theorem blockRest_one_block {s : List Byte} (h64 : 64 ≤ s.length) (h128 : s.length < 128) : blockRest s = s.drop 64 := by
  have hone : s.length / 64 = 1 := by omega
  rw [blockRest, hone]

/-- Settles O18: `engine_ingest_eq`, whose whole blocks are none short of 64 bytes and the first 64 bytes from there on. -/
theorem ingestAtEveryBufferLength : Obligations.IngestAtEveryBufferLength := by
  intro s bytes hopen hbuf hwf
  have hlen : bytes.length ≤ 3 := of_decide_eq_true hwf
  have hall : (s.inst.eng.buf ++ bytes).length = s.inst.eng.buf.length + bytes.length := List.length_append
  refine ⟨_, exec_ingest_open hopen bytes, fun hshort => ?short, fun hfull => ?full, ?count, rfl, engine_ingest_memo _ _,
    engine_ingest_ill _ _, engine_ingest_seq _ _, rfl, rfl, rfl, rfl⟩
  case short =>
    rw [setEngine_eng, engine_ingest_eq hbuf]
    exact ⟨compressAll_short _ (by omega), blockRest_short (by omega)⟩
  case full =>
    rw [setEngine_eng, engine_ingest_eq hbuf]
    exact ⟨compressAll_one_block _ (by omega) (by omega), blockRest_one_block (by omega) (by omega)⟩
  case count => rw [setEngine_eng, engine_ingest_bitcnt, BitVec.toNat_add, BitVec.toNat_ofNat, Nat.add_mod_mod]

/-- Settles O20: while Finalized INGEST raises SequenceError, else it replaces the engine by `Engine.ingest`. -/
theorem ingestFrame : Obligations.IngestFrame := by
  intro s t bytes ht
  by_cases hfin : s.inst.eng.phase = .finalized
  · rw [exec_ingest_finalized hfin] at ht
    cases ht
    exact ⟨rfl, rfl, rfl, rfl, rfl, absurd hfin, fun _ => ⟨rfl, rfl, rfl, hfin⟩⟩
  · rw [exec_ingest_open hfin] at ht
    cases ht
    exact ⟨engine_ingest_memo _ _, engine_ingest_ill _ _, rfl, rfl, rfl, fun _ => ⟨engine_ingest_seq _ _, rfl⟩,
      fun h => absurd h hfin⟩

/-! Chunking. -/

/-- Two INGESTs are one INGEST of the two payloads joined. -/
theorem engine_ingest_ingest {e : Engine} (h : e.buf.length ≤ 63) (xs ys : List Byte) :
    (e.ingest xs).ingest ys = e.ingest (xs ++ ys) := by
  have hxs : (e.ingest xs).buf.length ≤ 63 := pushAll_buf_short h xs
  rw [engine_ingest_eq hxs, engine_ingest_eq h xs, engine_ingest_eq h (xs ++ ys)]
  simp only [← List.append_assoc, ← compressAll_append_rest, blockRest_append_rest, List.length_append, Nat.mul_add,
    BitVec.ofNat_add, BitVec.add_assoc]

/-- A run of one or more INGESTs is one INGEST of the payloads joined. -/
theorem runCommands_ingests (chunks : List (List Byte)) : ∀ {s : State} (chunk : List Byte),
    s.inst.eng.phase ≠ .finalized → s.inst.eng.buf.length ≤ 63 →
    runCommands ((chunk :: chunks).map Instr.ingest) s =
      .next (s.setEngine (s.inst.eng.ingest (chunk :: chunks).flatten)) := by
  induction chunks with
  | nil =>
    intro s chunk hopen _
    simp only [List.map_cons, List.map_nil, runCommands, exec_ingest_open hopen, List.flatten_singleton]
  | cons chunk' chunks ih =>
    intro s chunk hopen hbuf
    have hopen' : (s.setEngine (s.inst.eng.ingest chunk)).inst.eng.phase ≠ .finalized := by simp
    have hbuf' : (s.setEngine (s.inst.eng.ingest chunk)).inst.eng.buf.length ≤ 63 := pushAll_buf_short hbuf chunk
    rw [List.map_cons, runCommands, exec_ingest_open hopen]
    dsimp only
    rw [ih chunk' hopen' hbuf', setEngine_eng, engine_ingest_ingest hbuf]
    rfl

/-- Settles O22: both runs are one INGEST of the joined payload (`runCommands_ingests`). -/
theorem chunkingInvariance : Obligations.ChunkingInvariance := by
  intro s c1 c2 hopen hbuf hc1 hc2 hsame
  obtain ⟨x, xs, rfl⟩ := List.exists_cons_of_ne_nil hc1
  obtain ⟨y, ys, rfl⟩ := List.exists_cons_of_ne_nil hc2
  exact ⟨_, runCommands_ingests xs x hopen hbuf, hsame ▸ runCommands_ingests ys y hopen hbuf⟩

/-! The message held. -/

theorem Engine.Holds.not_finalized {m : List Byte} {e : Engine} (h : e.Holds m) : e.phase ≠ .finalized := by
  obtain hphase | ⟨hphase, -⟩ := h.lifecycle <;> simp [hphase]

theorem Engine.Holds.buf_short {m : List Byte} {e : Engine} (h : e.Holds m) : e.buf.length ≤ 63 := by
  have : e.buf.length = m.length % 64 := h.rest ▸ blockRest_length m
  omega

theorem engine_powerOn_holds : Engine.powerOn.Holds [] where
  hash := (compressAll_short iv (s := []) (Nat.zero_lt_succ 63)).symm
  rest := rfl
  count := rfl
  lifecycle := .inr ⟨rfl, rfl⟩

/-- INGEST appends to the message, by R123's chain of blocks. -/
theorem Engine.Holds.ingest {m : List Byte} {e : Engine} (h : e.Holds m) (bytes : List Byte) :
    (e.ingest bytes).Holds (m ++ bytes) := by
  have hbuf : e.buf = blockRest m := h.rest
  rw [engine_ingest_eq h.buf_short]
  exact {
    hash := by rw [hbuf, h.hash, ← compressAll_append_rest]
    rest := by
      rw [hbuf, blockRest_append_rest]
      rfl
    count := by rw [h.count, List.length_append, Nat.mul_add, BitVec.ofNat_add]
    lifecycle := .inl rfl }

/-- Settles O23: an engine that holds a message is not Finalized, so INGEST runs, and appends (`Engine.Holds.ingest`). -/
theorem ingestAppendsToTheMessage : Obligations.IngestAppendsToTheMessage :=
  fun _ _ bytes h => ⟨_, exec_ingest_open h.not_finalized bytes, h.ingest bytes⟩

/-- FINALIZE compresses what is left of the padded message: the padding of the rest is the padding of the whole. -/
theorem Engine.Holds.finalizeNow_memo {m : List Byte} {e : Engine} (h : e.Holds m) :
    e.finalizeNow.memo = messageDigest m := by
  have hbuf : e.buf = blockRest m := h.rest
  have hzeros : padZeros m.length = padZeros (blockRest m).length := by
    rw [blockRest_length, ← padZeros_add_blocks (m.length / 64) (m.length % 64), Nat.div_add_mod]
  have hpadded : paddedMessage m = m ++ padSuffix (blockRest m).length (BitVec.ofNat 64 (8 * m.length)) := by
    simp only [paddedMessage, padSuffix, hzeros, List.append_assoc]
  rw [Machine.finalizeNow_memo, messageDigest, hpadded, compressAll_append_rest, ← h.hash, ← hbuf, ← pad_eq_append,
    ← h.count]
  rfl

/-- What R25, R27 and R167 say an engine shows: a message so far, or the digest of one. -/
def Engine.DigestRight (e : Engine) : Prop := (∃ m, e.Holds m) ∨ ∃ m, e.phase = .finalized ∧ e.memo = messageDigest m

theorem Engine.DigestRight.holds {e : Engine} (h : e.DigestRight) (hopen : e.phase ≠ .finalized) : ∃ m, e.Holds m := by
  obtain hm | ⟨-, hphase, -⟩ := h
  · exact hm
  · exact absurd hphase hopen

theorem engineInvariant_digestRight : EngineInvariant Engine.DigestRight where
  powerOn := .inl ⟨[], engine_powerOn_holds⟩
  ingest e bytes hopen h := by
    obtain ⟨m, hm⟩ := h.holds hopen
    exact .inl ⟨m ++ bytes, hm.ingest bytes⟩
  finalizeNow e hopen h := by
    obtain ⟨m, hm⟩ := h.holds hopen
    exact .inr ⟨m, rfl, hm.finalizeNow_memo⟩
  withSticky e ill seq h := by
    obtain ⟨m, hm⟩ | hfin := h
    · exact .inl ⟨m, hm.hash, hm.rest, hm.count, hm.lifecycle⟩
    · exact .inr hfin

/-- Settles O43: `Engine.DigestRight` is an engine invariant. -/
theorem stepKeepsDigestsRight : Obligations.StepKeepsDigestsRight :=
  fun _ _ hs ht => step_keeps_allEngines engineInvariant_digestRight hs ht

/-! Whole runs of commands. -/

/-- The instance after a run of commands. -/
def instRun (commands : List Instr) (j : Instance) : Instance := commands.foldl (fun j i => instExec i j) j

theorem instRun_cons (i : Instr) (commands : List Instr) (j : Instance) :
    instRun (i :: commands) j = instRun commands (instExec i j) := rfl

theorem instRun_append (c1 c2 : List Instr) (j : Instance) : instRun (c1 ++ c2) j = instRun c2 (instRun c1 j) :=
  List.foldl_append

/-- Commands always complete, and touch the instance they run on alone. -/
theorem runCommands_eq (commands : List Instr) : ∀ s : State,
    runCommands commands s = .next { s with inst := instRun commands s.inst } := by
  induction commands with
  | nil => exact fun s => rfl
  | cons i commands ih =>
    intro s
    rw [runCommands, exec_eq]
    exact ih _

/-- INGESTs carrying a message, on an instance that holds one. -/
theorem instRun_ingests_holds (chunks : List (List Byte)) : ∀ {j : Instance} {m : List Byte}, j.eng.Holds m →
    ∃ e : Engine, instRun (chunks.map Instr.ingest) j = { j with eng := e } ∧ e.Holds (m ++ chunks.flatten) := by
  induction chunks with
  | nil =>
    intro j m h
    exact ⟨j.eng, rfl, by simpa using h⟩
  | cons chunk chunks ih =>
    intro j m h
    rw [List.map_cons, instRun_cons, instExec_ingest_open h.not_finalized, List.flatten_cons, ← List.append_assoc]
    exact ih (j := { j with eng := j.eng.ingest chunk }) (h.ingest chunk)

/-- RESET, a message in any split, and FINALIZE memoize the digest of the message and log nothing, whatever instance they
run on. -/
theorem instRun_hash (chunks : List (List Byte)) (j : Instance) :
    ∃ e : Engine, instRun (.reset :: chunks.map Instr.ingest ++ [.finalize]) j = { j with eng := e } ∧
      e.phase = .finalized ∧ e.memo = messageDigest chunks.flatten := by
  obtain ⟨e, hrun, hm⟩ := instRun_ingests_holds chunks (j := { j with eng := .powerOn }) engine_powerOn_holds
  refine ⟨e.finalizeNow, ?_, rfl, hm.finalizeNow_memo⟩
  rw [List.cons_append, instRun_cons, instExec_reset, instRun_append, hrun, ← finalize_of_open hm.not_finalized]
  rfl

/-- Settles O30: `instRun_hash`, with `messageDigest` written out. -/
theorem digestClosedForm : Obligations.DigestClosedForm := by
  intro s chunks
  obtain ⟨e, hrun, hphase, hmemo⟩ := instRun_hash chunks s.inst
  refine ⟨_, runCommands_eq _ s, ?_⟩
  rw [hrun]
  exact ⟨hphase, rfl, hmemo⟩

theorem compress_padded_empty :
    compressAll iv (paddedMessage []) =
      { h0 := 0xda39a3ee, h1 := 0x5e6b4b0d, h2 := 0x3255bfef, h3 := 0x95601890, h4 := 0xafd80709 } := by
  decide +kernel

theorem compress_padded_abc :
    compressAll iv (paddedMessage [0x61, 0x62, 0x63]) =
      { h0 := 0xa9993e36, h1 := 0x4706816a, h2 := 0xba3e2571, h3 := 0x7850c26c, h4 := 0x9cd0d89d } := by
  decide +kernel

/-- Settles O31: one compression each, computed by the kernel. -/
theorem workedDigests : Obligations.WorkedDigests :=
  ⟨congrArg digestBytes compress_padded_empty, congrArg digestBytes compress_padded_abc⟩

/-- Settles O15: RESET forgets what the commands before it did, and FINALIZE then memoizes the digest of the empty message. -/
theorem resetThenFinalizeGivesEmptyDigest : Obligations.ResetThenFinalizeGivesEmptyDigest := by
  intro commands s
  obtain ⟨hempty, -⟩ := workedDigests
  obtain ⟨e, hrun, hphase, hmemo⟩ := instRun_hash [] (instRun commands s.inst)
  have hafter : instRun (commands ++ [.reset, .finalize]) s.inst = { instRun commands s.inst with eng := e } :=
    (instRun_append ..).trans hrun
  refine ⟨_, runCommands_eq _ s, ?_⟩
  rw [hafter]
  exact ⟨hphase, hmemo.trans hempty⟩

end Sys2Proof.Machine
end

section
/-! PROOF. Which accesses the host port performs and which it refuses (20_memory.md R51, R55; 45_control.md R188), and what a
performed access does to the platform. -/

namespace Sys2Proof.Machine

/-- THE CONVERSE OF `step_next`: an access that reaches an instance that is there, aligned and 32 bits wide, is performed. -/
theorem step_eq_accessEffect {s : State} {a : Access} {rest : List Access} {k : Nat} {j : Instance}
    (hp : s.pending = a :: rest) (hreach : a.reaches s = some k) (hk : s.instAt k = some j)
    (hport : ∀ tg width v, a = .write tg width v ∨ a = .read tg width →
      width = .word ∧ ∃ off, resolve tg s = some (k, off) ∧ off % 4 = 0) :
    step s = .next (State.setInst k (accessEffect a s j) { s with pending := rest }) := by
  cases a with
  | write tg width v =>
    obtain ⟨rfl, off, hr, ho⟩ := hport tg width v (.inl rfl)
    rw [step_write hp hr ho hk]
    by_cases h0 : off = 0
    · subst h0
      rw [if_pos rfl, accessEffect_write_cmd hr]
    · rw [if_neg h0, accessEffect_write_other hr h0]
  | read tg width =>
    obtain ⟨rfl, off, hr, ho⟩ := hport tg width 0 (.inr rfl)
    rw [step_read hp hr ho hk, accessEffect_read hr]
  | hardReset n =>
    cases hreach
    exact step_hardReset hp hk

/-! No step ends in a fault. -/

theorem onInstance_ne_fault {f : State → Host.Outcome State Fault Refusal} (hf : ∀ u, ∃ v, f u = .next v) (k : Nat)
    (s : State) (r : Fault) : onInstance k f s ≠ .fault r := by
  cases hk : s.instAt k with
  | none => simp [onInstance_none f hk]
  | some j =>
    obtain ⟨v, hv⟩ := hf { s with inst := j }
    simp [onInstance, hk, hv]

theorem atTarget_ne_fault {f : Nat → State → Host.Outcome State Fault Refusal} (hf : ∀ off u, ∃ v, f off u = .next v)
    (t : Target) (width : Width) (s : State) (r : Fault) : atTarget t width f s ≠ .fault r := by
  unfold atTarget
  split
  · simp
  · split
    · simp
    · exact onInstance_ne_fault (hf _) _ _ _

theorem perform_ne_fault (a : Access) (s : State) (r : Fault) : perform a s ≠ .fault r := by
  cases a with
  | write t width v => exact atTarget_ne_fault (fun off u => ⟨_, regWrite_eq off v u⟩) t width s r
  | read t width => exact atTarget_ne_fault (fun off u => ⟨_, readReg_eq off u⟩) t width s r
  | hardReset k => exact onInstance_ne_fault (fun u => ⟨_, hardReset_eq u⟩) k s r

theorem step_ne_fault (s : State) (r : Fault) : step s ≠ .fault r := by
  cases hp : s.pending with
  | nil => simp [step_nil hp]
  | cons a rest =>
    rw [step_cons hp]
    exact perform_ne_fault a _ r

/-- Settles O9: each kind of access has its own next state, and `step_ne_fault`. -/
theorem stepCompletes : Obligations.StepCompletes := by
  refine ⟨fun s a rest t v k off hp ha ht ho hthere => ?access, fun s rest k hp hthere => ?reset, step_ne_fault⟩
  all_goals obtain ⟨j, hk⟩ := Option.ne_none_iff_exists'.mp hthere
  case access =>
    obtain rfl | rfl := ha
    · exact ⟨_, step_write hp ht ho hk⟩
    · exact ⟨_, step_read hp ht ho hk⟩
  case reset => exact ⟨_, step_hardReset hp hk⟩

/-! Refused accesses (R188). -/

/-- A register write and a register read are both an operation at their target. -/
theorem step_atTarget {s : State} {a : Access} {rest : List Access} {t : Target} {width : Width} {v : Word}
    (hp : s.pending = a :: rest) (ha : a = .write t width v ∨ a = .read t width) :
    ∃ f, step s = atTarget t width f { s with pending := rest } := by
  rw [step_cons hp]
  obtain rfl | rfl := ha <;> exact ⟨_, rfl⟩

theorem atTarget_outside {t : Target} {s : State} (ht : resolve t s = none) (width : Width)
    (f : Nat → State → Host.Outcome State Fault Refusal) : atTarget t width f s = .refused (.outsideWindow t) := by
  simp only [atTarget, ht]

theorem atTarget_problem {t : Target} {s : State} {k off : Nat} {width : Width} {r : Refusal}
    (ht : resolve t s = some (k, off)) (hr : accessProblem off width = some r)
    (f : Nat → State → Host.Outcome State Fault Refusal) : atTarget t width f s = .refused r := by
  simp only [atTarget, ht, hr]

theorem accessProblem_misaligned {off : Nat} (h : off % 4 ≠ 0) (width : Width) :
    accessProblem off width = some (.misaligned off) := if_pos h

theorem accessProblem_subWord {off : Nat} (h : off % 4 = 0) {width : Width} (hwidth : width ≠ .word) :
    accessProblem off width = some (.subWord width) := by
  cases width with
  | byte | half => exact if_neg (not_not_intro h)
  | word => exact absurd rfl hwidth

theorem resolve_window_eq_none_iff (k off : Nat) (s : State) : resolve (.window k off) s = none ↔ 0x3F < off := by
  by_cases h : off < 64
  · rw [resolve_window h]
    exact iff_of_false (fun hnone => nomatch hnone) (by omega)
  · exact iff_of_true (if_neg h) (by omega)

/-- Settles O10: one refusal of `atTarget` after the other, in the order it tests them. -/
theorem badAccessRefused : Obligations.BadAccessRefused := by
  intro s a rest t width v hp ha
  obtain ⟨f, hstep⟩ := step_atTarget hp ha
  rw [hstep]
  refine ⟨fun ht => ?outside, fun k off ht ho => ?misaligned, fun k off ht ho hwidth => ?subWord,
    fun k off ht => ?window⟩
  case outside => exact atTarget_outside (s := { s with pending := rest }) ht width f
  case misaligned => exact atTarget_problem (s := { s with pending := rest }) ht (accessProblem_misaligned ho width) f
  case subWord => exact atTarget_problem (s := { s with pending := rest }) ht (accessProblem_subWord ho hwidth) f
  case window =>
    rw [ht]
    exact resolve_window_eq_none_iff k off s

/-- Settles O11: `locate` takes the first index whose window holds the address. -/
theorem addressReachesItsWindow : Obligations.AddressReachesItsWindow := by
  intro bases n a
  refine ⟨fun k hk hlow hhigh hfirst => ?inside, fun hnone => ?outside⟩
  case inside =>
    have hfind : (List.range n).find? (fun k => inWindow (bases k) a) = some k := by
      refine List.find?_range_eq_some.mpr ⟨(inWindow_iff _ _).mpr ⟨hlow, hhigh⟩, List.mem_range.mpr hk, fun j hj => ?_⟩
      rw [Bool.not_eq_true', ← Bool.not_eq_true, inWindow_iff]
      exact hfirst j hj
    rw [locate, hfind, Option.map_some]
  case outside =>
    have hfind : (List.range n).find? (fun k => inWindow (bases k) a) = none := by
      refine List.find?_eq_none.mpr fun k hk => ?_
      rw [inWindow_iff]
      exact hnone k (List.mem_range.mp hk)
    rw [locate, hfind, Option.map_none]

/-! The next step. -/

/-- Settles O8: `performNext` of an empty list. -/
theorem idleHoldsState : Obligations.IdleHoldsState := fun _ => step_nil

theorem decode_of_decodeTableWord {nbits w : Nat} {i : Instr} (h : decodeTableWord nbits w = some i) :
    decode (BitVec.ofNat 32 (w % 2 ^ nbits)) = .legal i := by
  unfold decodeTableWord at h
  split at h
  · cases hd : decode (BitVec.ofNat 32 (w % 2 ^ nbits)) with
    | legal k =>
      rw [hd] at h
      exact congrArg Decoded.legal (Option.some.inj h)
    | illegal r =>
      rw [hd] at h
      cases h
  · cases h

/-- Settles O7: the word placed is the next access, and instance 0 is the one `exec` performs on. -/
theorem fetchWordRunsNext : Obligations.FetchWordRunsNext := by
  intro s nbits w i h
  rw [exec_eq]
  exact step_command_legal (s := s.withFetchWord nbits w) rfl rfl rfl (decode_of_decodeTableWord h)

/-- Settles O21: the word logged is the encoding of what it decodes to, which is the word itself (`encode_of_decode`). -/
theorem sequenceErrorRecordsTheWord : Obligations.SequenceErrorRecordsTheWord := by
  intro s a rest k w bytes j hp hc hk hd hfin
  rw [step_command_legal hp hc hk hd, instExec_ingest_finalized hfin, encode_of_decode hd]

/-! What a step leaves of an engine. -/

/-- Settles O52: of what a step can do to an instance (`step_instAt_cases`), only a read or an ignored write is left. -/
theorem onlyCommandsChangeEngines : Obligations.OnlyCommandsChangeEngines := by
  intro s t a rest k j hp ht hno hnoreset hk
  obtain ⟨u, hu, ⟨w, hc, -⟩ | ⟨ha, -⟩ | hkeep⟩ := step_instAt_cases hp ht hk
  · cases hno.symm.trans hc
  · exact absurd ha (hnoreset k)
  · exact ⟨u, hu, hkeep⟩

/-- A word other than RESET changes no more of a Finalized engine than its sticky bits. -/
theorem wordEffect_finalized {w : Word} {j : Instance} (hw : decode w ≠ .legal .reset) (hfin : j.eng.phase = .finalized) :
    ∃ ill seq, (wordEffect w j).eng = j.eng.withSticky ill seq := by
  cases hd : decode w with
  | legal i =>
    rw [wordEffect_legal hd]
    cases i with
    | reset => exact absurd hd hw
    | ingest bytes => exact ⟨j.eng.ill, true, by rw [instExec_ingest_finalized hfin, Engine.withSticky]⟩
    | finalize => exact ⟨j.eng.ill, j.eng.seq, by rw [instExec_finalize_finalized hfin, Engine.withSticky]⟩
  | illegal r => exact ⟨true, j.eng.seq, by rw [wordEffect_illegal hd, Engine.withSticky]⟩

/-- Settles O44: a command word changes a Finalized engine by RESET alone but for the sticky bits (`wordEffect_finalized`). -/
theorem finalizedUntilReset : Obligations.FinalizedUntilReset := by
  intro s t a rest k j hp ht hk hfin hno
  obtain ⟨u, hu, ⟨w, hc, rfl⟩ | ⟨ha, -⟩ | ⟨heng, -⟩⟩ := step_instAt_cases hp ht hk
  · obtain ⟨ill, seq, heng⟩ := wordEffect_finalized (w := w) (fun hd => hno (.inr ⟨w, hc, hd⟩)) hfin
    refine ⟨_, hu, ?_⟩
    rw [heng]
    exact ⟨rfl, rfl, rfl, hfin, rfl⟩
  · exact absurd (.inl ha) hno
  · refine ⟨u, hu, ?_⟩
    rw [heng]
    exact ⟨rfl, rfl, rfl, hfin, rfl⟩

/-- Where an access goes is all that it reads of the platform. -/
theorem accessEffect_congr {a : Access} {s1 s2 : State}
    (h : ∀ t width v, a = .write t width v ∨ a = .read t width → resolve t s1 = resolve t s2) (j : Instance) :
    accessEffect a s1 j = accessEffect a s2 j := by
  cases a with
  | write t width v => simp only [accessEffect, h t width v (.inl rfl)]
  | read t width => simp only [accessEffect, h t width 0 (.inr rfl)]
  | hardReset k => rfl

theorem reaches_congr {a : Access} {s1 s2 : State}
    (h : ∀ t width v, a = .write t width v ∨ a = .read t width → resolve t s1 = resolve t s2) :
    a.reaches s1 = a.reaches s2 := by
  cases a with
  | write t width v => simp only [Access.reaches, h t width v (.inl rfl)]
  | read t width => simp only [Access.reaches, h t width 0 (.inr rfl)]
  | hardReset k => rfl

/-- Settles O55: what `step_next` finds of the first platform holds of the second, which therefore steps too
(`step_eq_accessEffect`), and the effect is the same. -/
theorem instanceLearnsNothingOfOthers : Obligations.InstanceLearnsNothingOfOthers := by
  intro s1 s2 t1 a rest1 rest2 k hp1 hp2 hreach hresolve hsame ht
  obtain ⟨n, j, hn, hj, rfl, hport⟩ := step_next hp1 ht
  cases hreach.symm.trans hn
  have hj2 : s2.instAt k = some j := hsame ▸ hj
  have hport2 : ∀ tg width v, a = .write tg width v ∨ a = .read tg width →
      width = .word ∧ ∃ off, resolve tg s2 = some (k, off) ∧ off % 4 = 0 :=
    fun tg width v ha => hresolve tg width v ha ▸ hport tg width v ha
  refine ⟨_, step_eq_accessEffect hp2 (reaches_congr hresolve ▸ hreach) hj2 hport2, ?_⟩
  rw [instAt_setInst_same _ _ _ (by simp [hj]), instAt_setInst_same _ _ _ (by simp [hj2]), accessEffect_congr hresolve]

end Sys2Proof.Machine
end

section
/-! PROOF. The padding of FINALIZE block by block, the padding FSM, and the count of compressions (44_finalizer.md R162, R165,
R166; 70_reset_and_hazards.md R262). -/

namespace Sys2Proof.Machine

/-- One padding block up to 55 bytes. -/
theorem pad_short {buf : List Byte} (h : buf.length ≤ 55) (n : Word64) :
    pad buf n = buf ++ [0x80] ++ List.replicate (55 - buf.length) 0x00 ++ be64 n := by
  rw [pad, padZeros_short h]

/-- Two padding blocks from 56 bytes on, cut after the first. -/
theorem pad_long {buf : List Byte} (h : 56 ≤ buf.length) (h' : buf.length ≤ 63) (n : Word64) :
    pad buf n = (buf ++ [0x80] ++ List.replicate (63 - buf.length) 0x00) ++ (List.replicate 56 0x00 ++ be64 n) := by
  have hzeros : padZeros buf.length = (63 - buf.length) + 56 := by
    rw [padZeros_long h h']
    omega
  simp only [pad, hzeros, List.replicate_add, List.append_assoc]

/-- Settles O25: the padded buffer is one block (`pad_short`) or two (`pad_long`). -/
theorem finalizeOneOrTwoBlocks : Obligations.FinalizeOneOrTwoBlocks := by
  intro s hopen
  refine ⟨fun h => ⟨_, exec_finalize_open hopen, ?one⟩, fun h h' => ⟨_, exec_finalize_open hopen, ?two⟩⟩
  case one =>
    rw [setEngine_eng, Engine.finalizeNow, pad_short h]
    refine compressAll_block _ ?_
    simp only [List.length_append, List.length_singleton, List.length_replicate, be64_length]
    omega
  case two =>
    rw [setEngine_eng, Engine.finalizeNow, pad_long h h']
    dsimp only
    rw [compressAll_block_append _ ?first, compressAll_block _ ?second]
    case first =>
      simp only [List.length_append, List.length_singleton, List.length_replicate]
      omega
    case second => rw [List.length_append, List.length_replicate, be64_length]

/-! The padding FSM of R165. -/

theorem padFsm_run_add (m n : Nat) : ∀ f : PadFsm, PadFsm.run (m + n) f = PadFsm.run n (PadFsm.run m f) := by
  induction m with
  | zero => intro f; rw [Nat.zero_add, PadFsm.run]
  | succ m ih =>
    intro f
    rw [Nat.succ_add, PadFsm.run, ih, PadFsm.run]

/-- FIN_DONE is left by no transition. -/
theorem padFsm_run_finDone (n : Nat) (nlen : Word64) (e : Engine) :
    PadFsm.run n { st := .finDone, nlen := nlen, eng := e } = { st := .finDone, nlen := nlen, eng := e } := by
  induction n with
  | zero => rfl
  | succ n ih => exact ih

theorem padFsm_padZero_full {e : Engine} (h : e.buf.length = 56) (nlen : Word64) :
    PadFsm.next { st := .padZero, nlen := nlen, eng := e } = { st := .padLen 0, nlen := nlen, eng := e } := if_pos h

theorem padFsm_padZero_push {e : Engine} (h : e.buf.length ≠ 56) (nlen : Word64) :
    PadFsm.next { st := .padZero, nlen := nlen, eng := e } = { st := .padZero, nlen := nlen, eng := e.push 0x00 } :=
  if_neg h

/-- PAD_ZERO pushes k zeros if none of them is pushed to a buffer of 56 bytes. -/
theorem padFsm_run_padZero (k : Nat) : ∀ {e : Engine} (nlen : Word64), e.buf.length ≤ 63 →
    (∀ y, y < k → (e.buf.length + y) % 64 ≠ 56) →
    PadFsm.run k { st := .padZero, nlen := nlen, eng := e } =
      { st := .padZero, nlen := nlen, eng := e.pushAll (List.replicate k 0x00) } := by
  induction k with
  | zero => exact fun _ _ _ => rfl
  | succ k ih =>
    intro e nlen hbuf hzeros
    have hlen : (e.push 0x00).buf.length = (e.buf.length + 1) % 64 := length_pushAll_buf hbuf [0x00]
    have hne : e.buf.length ≠ 56 := by
      have := hzeros 0 (Nat.zero_lt_succ k)
      omega
    rw [PadFsm.run, padFsm_padZero_push hne, ih nlen (by omega) fun y hy => ?later, List.replicate_succ, pushAll_cons]
    case later =>
      have := hzeros (y + 1) (Nat.succ_lt_succ hy)
      omega

theorem padFsm_padLen_next (j : Nat) (nlen : Word64) (e : Engine) :
    PadFsm.next { st := .padLen j, nlen := nlen, eng := e } =
      { st := if j + 1 = 8 then .finEmit else .padLen (j + 1), nlen := nlen, eng := e.push ((be64 nlen).getD j 0) } := rfl

/-- PAD_LEN pushes the bytes of the bit count from byte j on, and goes to FIN_EMIT after the eighth. -/
theorem padFsm_run_padLen (k : Nat) : ∀ {j : Nat} (nlen : Word64) (e : Engine), j + (k + 1) = 8 →
    PadFsm.run (k + 1) { st := .padLen j, nlen := nlen, eng := e } =
      { st := .finEmit, nlen := nlen, eng := e.pushAll ((be64 nlen).drop j) } := by
  induction k with
  | zero =>
    intro j nlen e hj
    cases hj
    rfl
  | succ k ih =>
    intro j nlen e hj
    have hlt : j < (be64 nlen).length := by rw [be64_length]; omega
    have hmore : j + 1 ≠ 8 := by omega
    rw [PadFsm.run, padFsm_padLen_next, if_neg hmore, ih nlen _ (by omega), List.drop_eq_getElem_cons hlt, pushAll_cons,
      List.getD_eq_getElem _ _ hlt]

/-- The padding after its mark: zeros up to 56 bytes, then the bit count. -/
theorem padFsm_run_afterMark {e : Engine} (h : e.buf.length ≤ 63) (nlen : Word64) :
    PadFsm.run (padZeros e.buf.length + 9) { st := .padZero, nlen := nlen, eng := e.push 0x80 } =
      { st := .finEmit, nlen := nlen, eng := e.pushAll (padSuffix e.buf.length nlen) } := by
  have hlen : (e.push 0x80).buf.length = (e.buf.length + 1) % 64 := length_pushAll_buf h [0x80]
  have hshort : (e.push 0x80).buf.length ≤ 63 := by omega
  have hzeros : ∀ y, y < padZeros e.buf.length → ((e.push 0x80).buf.length + y) % 64 ≠ 56 := by
    intro y hy
    rw [hlen, Nat.mod_add_mod]
    exact padZeros_least hy
  have hfull : ((e.push 0x80).pushAll (List.replicate (padZeros e.buf.length) 0x00)).buf.length = 56 := by
    rw [length_pushAll_buf hshort, hlen, List.length_replicate, Nat.mod_add_mod]
    exact padZeros_mod e.buf.length
  rw [padFsm_run_add, padFsm_run_padZero _ nlen hshort hzeros, PadFsm.run, padFsm_padZero_full hfull, padFsm_run_padLen 7 _ _ rfl,
    List.drop_zero, ← pushAll_append, ← pushAll_cons]
  rfl

/-- The FSM run for a command on an engine that is not Finalized: 12 transitions and one for each zero byte, which 75 cover. -/
theorem padFsm_run_open {e : Engine} (hopen : e.phase ≠ .finalized) (h : e.buf.length ≤ 63) :
    PadFsm.run padFsmSteps (PadFsm.start e) = { st := .finDone, nlen := e.bitcnt, eng := e.finalizeNow } := by
  have hcheck : (PadFsm.start e).next = { st := .padMark, nlen := e.bitcnt, eng := e } := if_neg hopen
  have hmark : PadFsm.run 2 (PadFsm.start e) = { st := .padZero, nlen := e.bitcnt, eng := e.push 0x80 } := by
    rw [PadFsm.run, hcheck]
    rfl
  obtain ⟨spare, hspare⟩ : ∃ spare, padFsmSteps = 2 + ((padZeros e.buf.length + 9) + (1 + spare)) := by
    have := padZeros_lt e.buf.length
    exact ⟨63 - padZeros e.buf.length, by unfold padFsmSteps; omega⟩
  calc PadFsm.run padFsmSteps (PadFsm.start e)
      _ = PadFsm.run (1 + spare) (PadFsm.run (padZeros e.buf.length + 9)
            { st := .padZero, nlen := e.bitcnt, eng := e.push 0x80 }) := by
          rw [hspare, padFsm_run_add, padFsm_run_add, hmark]
      _ = PadFsm.run spare { st := .finDone, nlen := e.bitcnt, eng := e.finalizeNow } := by
          rw [padFsm_run_afterMark h, pushAll_padSuffix e h, padFsm_run_add]
          rfl
      _ = { st := .finDone, nlen := e.bitcnt, eng := e.finalizeNow } := padFsm_run_finDone spare _ _

/-- While Finalized the FSM goes to FIN_DONE at once. -/
theorem padFsm_run_finalized {e : Engine} (h : e.phase = .finalized) :
    PadFsm.run padFsmSteps (PadFsm.start e) = { st := .finDone, nlen := 0, eng := e } := by
  have hcheck : (PadFsm.start e).next = { st := .finDone, nlen := 0, eng := e } := if_pos h
  rw [padFsmSteps, PadFsm.run, hcheck, padFsm_run_finDone]

/-- Settles O28: the whole run of the FSM in either lifecycle case. -/
theorem paddingFsmEqualsFinalize : Obligations.PaddingFsmEqualsFinalize := by
  intro e h
  rw [Engine.finalizeByFsm]
  by_cases hfin : e.phase = .finalized
  · rw [padFsm_run_finalized hfin, finalize_of_finalized hfin]
    exact ⟨rfl, rfl⟩
  · rw [padFsm_run_open hfin h, finalize_of_open hfin]
    exact ⟨rfl, rfl⟩

/-! The count of compressions (R262). -/

theorem foldl_compress_blocksOf (h : HashState) (bytes : List Byte) :
    (blocksOf bytes).foldl compress h = compressAll h bytes := List.foldl_map

theorem blocksOf_length (bytes : List Byte) : (blocksOf bytes).length = bytes.length / 64 := by
  rw [blocksOf, List.length_map, List.length_range]

theorem blocksCompressed_ingest_open {e : Engine} (h : e.phase ≠ .finalized) (bytes : List Byte) :
    blocksCompressed (.ingest bytes) e = blocksOf (e.buf ++ bytes) := if_neg h

theorem blocksCompressed_finalize_open {e : Engine} (h : e.phase ≠ .finalized) :
    blocksCompressed .finalize e = blocksOf (pad e.buf e.bitcnt) := if_neg h

theorem blocksCompressed_finalized {e : Engine} (h : e.phase = .finalized) (i : Instr) : blocksCompressed i e = [] := by
  cases i with
  | reset => rfl
  | ingest bytes => exact if_pos h
  | finalize => exact if_pos h

/-- H after a command is H before it with the command's blocks compressed. -/
theorem instExec_h {i : Instr} (hi : i ≠ .reset) {j : Instance} (hbuf : j.eng.buf.length ≤ 63) :
    (instExec i j).eng.h = (blocksCompressed i j.eng).foldl compress j.eng.h := by
  by_cases hfin : j.eng.phase = .finalized
  · rw [blocksCompressed_finalized hfin, List.foldl_nil]
    cases i with
    | reset => exact absurd rfl hi
    | ingest bytes => rw [instExec_ingest_finalized hfin]
    | finalize => rw [instExec_finalize_finalized hfin]
  · cases i with
    | reset => exact absurd rfl hi
    | ingest bytes =>
      rw [blocksCompressed_ingest_open hfin, foldl_compress_blocksOf, instExec_ingest_open hfin, engine_ingest_eq hbuf]
    | finalize =>
      rw [blocksCompressed_finalize_open hfin, foldl_compress_blocksOf, instExec, finalize_of_open hfin, Engine.finalizeNow]

/-- Settles O39: H by `instExec_h`, and the counts by the length of what is compressed. -/
theorem compressionCounts : Obligations.CompressionCounts := by
  refine ⟨fun s t i hi hbuf ht => ?hash, fun e => rfl, fun e bytes hbuf hbytes => ?ingest, fun e hbuf => ?finalize⟩
  case hash =>
    rw [exec_eq] at ht
    cases ht
    exact instExec_h hi hbuf
  case ingest =>
    by_cases hfin : e.phase = .finalized
    · rw [blocksCompressed_finalized hfin, if_pos hfin, List.length_nil]
    · rw [blocksCompressed_ingest_open hfin, if_neg hfin, blocksOf_length, List.length_append]
      split <;> omega
  case finalize =>
    by_cases hfin : e.phase = .finalized
    · rw [blocksCompressed_finalized hfin, if_pos hfin, List.length_nil]
    · rw [blocksCompressed_finalize_open hfin, if_neg hfin, blocksOf_length, pad_blocks hbuf]

end Sys2Proof.Machine
end

section
/-! PROOF. The rotation (00_scope.md R9), the words of a block (40_byte_codec.md R103, R105), and the 16-word schedule window
(41_schedule_expander.md R112, 42_compression.md R124). -/

namespace Sys2Proof.Machine

/-- Settles O32: bits below n come from the right shift, which moved them up from the top, the others from the left shift. -/
theorem rotateMovesBits : Obligations.RotateMovesBits := by
  intro x n i _ hn hi
  simp only [rotl, BitVec.getLsbD_or, BitVec.getLsbD_shiftLeft, BitVec.getLsbD_ushiftRight, hi, decide_true, Bool.true_and]
  obtain hlt | hge := Nat.lt_or_ge i n
  · have hpos : (i + 32 - n) % 32 = 32 - n + i := by omega
    simp [hlt, hpos]
  · have hpos : (i + 32 - n) % 32 = i - n := by omega
    have hout : 32 ≤ 32 - n + i := by omega
    simp [Nat.not_lt.mpr hge, hpos, BitVec.getLsbD_of_ge _ _ hout]

/-- The words of a sequence of whole words, packed again, are the sequence (R105). -/
theorem flatMap_be32_words16 (n : Nat) : ∀ bytes : List Byte, bytes.length = 4 * n →
    (words16 bytes).flatMap be32 = bytes := by
  induction n with
  | zero =>
    intro bytes h
    cases List.length_eq_zero_iff.mp h
    rfl
  | succ n ih =>
    intro bytes h
    match bytes, h with
    | s0 :: s1 :: s2 :: s3 :: rest, h =>
      rw [words16, List.flatMap_cons, be32_unbe32, ih rest (by simpa [Nat.mul_add] using h)]
      rfl

/-- Settles O33: `unbe32_bytes` and `be32_unbe32` are the two directions on one word, and a block is sixteen words. -/
theorem codecLaws : Obligations.CodecLaws :=
  ⟨fun x => ⟨rfl, unbe32_bytes x⟩, be32_unbe32, flatMap_be32_words16 16⟩

/-! The schedule window. -/

theorem expandSchedule_succ (t : Nat) (w : List Word) :
    expandSchedule (t + 1) w = expandSchedule t w ++ [nextScheduleWord (expandSchedule t w)] := expandSchedule_add t 1 w

theorem scheduleWord_drop (w : List Word) (t i : Nat) : scheduleWord (w.drop t) i = scheduleWord w (t + i) := by
  rw [scheduleWord, scheduleWord, List.getD_eq_getElem?_getD, List.getD_eq_getElem?_getD, List.getElem?_drop]

/-- With W[t] to W[t+15] in the window, it takes in W[t+16]: the two recurrences read the same four words. -/
theorem windowNext_drop {w : List Word} {t : Nat} (h : w.length = t + 16) : windowNext (w.drop t) = nextScheduleWord w := by
  simp only [windowNext, nextScheduleWord, scheduleWord_drop, h, Nat.add_zero]
  rfl

/-- The window after t shifts is the last sixteen words of the schedule expanded t times. -/
theorem windowShift_iterate {w : List Word} (h : w.length = 16) (t : Nat) :
    windowShift^[t] w = (expandSchedule t w).drop t := by
  induction t with
  | zero => rfl
  | succ t ih =>
    have hlen : (expandSchedule t w).length = t + 16 := by rw [expandSchedule_length, h, Nat.add_comm]
    rw [Function.iterate_succ_apply', ih, windowShift, windowNext_drop hlen, List.drop_drop, expandSchedule_succ,
      List.drop_append_of_le_length (by omega)]

/-- Two expansions agree where both reach. -/
theorem scheduleWord_expandSchedule_congr {m n t : Nat} {w : List Word} (hm : t < w.length + m) (hn : t < w.length + n) :
    scheduleWord (expandSchedule m w) t = scheduleWord (expandSchedule n w) t := by
  have hmore (k d : Nat) (hk : t < w.length + k) :
      scheduleWord (expandSchedule (k + d) w) t = scheduleWord (expandSchedule k w) t := by
    rw [expandSchedule_add]
    exact scheduleWord_expandSchedule_old d (by rwa [expandSchedule_length])
  rw [← hmore m n hm, Nat.add_comm, hmore n m hn]

theorem scheduleWord_window {block : List Byte} (h : block.length = 64) {t : Nat} (ht : t < 80) :
    scheduleWord (windowShift^[t] (words16 block)) 0 = scheduleWord (schedule block) t := by
  have hwords : (words16 block).length = 16 := words16_length 16 block h
  rw [windowShift_iterate hwords, scheduleWord_drop, schedule]
  exact scheduleWord_expandSchedule_congr (by omega) (by omega)

/-- Settles O38: both round loops are folds over t (`windowRounds_eq_fold`, `rounds_schedule_eq_fold`) with the same word in
round t. -/
theorem scheduleWindowConforms : Obligations.ScheduleWindowConforms := by
  intro h block hblock
  refine ⟨fun t ht => scheduleWord_window hblock ht, ?sameHash⟩
  case sameHash =>
    rw [compressOnTheFly, compress, windowRounds_eq_fold, rounds_schedule_eq_fold hblock]
    refine congrArg (addWords h) (List.foldl_ext _ _ h fun v t ht => ?_)
    rw [Nat.zero_add, scheduleWord_window hblock (List.mem_range.mp ht), scheduleWord]

end Sys2Proof.Machine
end

section
/-! PROOF. The STATUS word (10_state.md R35, 60_exceptions.md R220, R221): its fields, and the one bit an event sets. -/

namespace Sys2Proof.Machine

/-- OR-ing bits 17 and 16, written with STATUS's fields, changes the two sticky bits alone. -/
theorem statusWord_or (e : Engine) (ill seq : Bool) :
    statusWord e ||| (0#14 ++ BitVec.ofBool seq ++ BitVec.ofBool ill ++ 0#2 ++ 0#6 ++ 0#6 ++ 0#2) =
      statusWord (e.withSticky (e.ill || ill) (e.seq || seq)) := by
  rw [statusWord, BitVec.or_append, BitVec.or_append, BitVec.or_append, BitVec.or_append, BitVec.or_append, BitVec.or_append]
  simp only [BitVec.or_zero, BitVec.ofBool_or_ofBool]
  rfl

/-- Settles O48: the event's bit is a word with STATUS's fields (`statusWord_or`). -/
theorem eventSetsItsStatusBit : Obligations.EventSetsItsStatusBit := by
  intro e w
  have hill : 1#32 <<< 16 = 0#14 ++ BitVec.ofBool false ++ BitVec.ofBool true ++ 0#2 ++ 0#6 ++ 0#6 ++ 0#2 := by decide
  have hseq : 1#32 <<< 17 = 0#14 ++ BitVec.ofBool true ++ BitVec.ofBool false ++ 0#2 ++ 0#6 ++ 0#6 ++ 0#2 := by decide
  refine ⟨rfl, rfl, ?ill, ?seq⟩
  case ill =>
    rw [hill, statusWord_or, Bool.or_true, Bool.or_false]
    rfl
  case seq =>
    rw [hseq, statusWord_or, Bool.or_true, Bool.or_false]
    rfl

/-! The fields of STATUS from the lowest up: each is what stands above the fields below it. -/

theorem statusWord_phase (e : Engine) : (statusWord e).extractLsb' 0 2 = e.phase.code := BitVec.extractLsb'_append_eq_right

theorem statusWord_zero_low (e : Engine) : (statusWord e).extractLsb' 2 6 = 0 := by
  rw [statusWord, BitVec.extractLsb'_append_eq_of_le (by decide)]
  exact BitVec.extractLsb'_append_eq_right

theorem statusWord_bufLen (e : Engine) : (statusWord e).extractLsb' 8 6 = BitVec.ofNat 6 e.buf.length := by
  rw [statusWord, BitVec.extractLsb'_append_eq_of_le (by decide), BitVec.extractLsb'_append_eq_of_le (by decide)]
  exact BitVec.extractLsb'_append_eq_right

theorem statusWord_zero_mid (e : Engine) : (statusWord e).extractLsb' 14 2 = 0 := by
  rw [statusWord, BitVec.extractLsb'_append_eq_of_le (by decide), BitVec.extractLsb'_append_eq_of_le (by decide),
    BitVec.extractLsb'_append_eq_of_le (by decide)]
  exact BitVec.extractLsb'_append_eq_right

theorem statusWord_ill (e : Engine) : (statusWord e).getLsbD 16 = e.ill := by
  simp only [statusWord, BitVec.getLsbD_append]
  simp

theorem statusWord_seq (e : Engine) : (statusWord e).getLsbD 17 = e.seq := by
  simp only [statusWord, BitVec.getLsbD_append]
  simp

theorem statusWord_zero_high (e : Engine) : (statusWord e).extractLsb' 18 14 = 0 := by
  rw [statusWord, BitVec.extractLsb'_append_eq_of_le (by decide), BitVec.extractLsb'_append_eq_of_le (by decide),
    BitVec.extractLsb'_append_eq_of_le (by decide), BitVec.extractLsb'_append_eq_of_le (by decide),
    BitVec.extractLsb'_append_eq_of_le (by decide)]
  exact BitVec.extractLsb'_append_eq_left

theorem phase_code_ne_reserved (p : Phase) : p.code ≠ 0b11 := by cases p <;> decide

theorem phaseOfStatus_statusWord (e : Engine) : phaseOfStatus (statusWord e) = .next e.phase := by
  rw [phaseOfStatus, statusWord_phase]
  cases e.phase <;> rfl

/-- Settles O50: one lemma per field; BUF_LEN fits its six bits. -/
theorem statusFields : Obligations.StatusFields := by
  intro e h
  have hfits : ((statusWord e).extractLsb' 8 6).toNat = e.buf.length := by
    rw [statusWord_bufLen]
    exact Nat.mod_eq_of_lt (Nat.lt_succ_of_le h)
  exact ⟨statusWord_phase e, statusWord_zero_low e, hfits, statusWord_zero_mid e, statusWord_ill e, statusWord_seq e,
    statusWord_zero_high e, statusWord_phase e ▸ phase_code_ne_reserved e.phase, phaseOfStatus_statusWord e⟩

end Sys2Proof.Machine
end

section
/-! PROOF. The host's programs on one instance (20_memory.md R59; 46_host_functions.md R201, R202): a run of register reads, and
hashString as commands followed by five of them. -/

namespace Sys2Proof.Machine

/-- The instance after a run of port operations on it. -/
def portRun (ops : List PortOp) (j : Instance) : Instance := ops.foldl (fun i p => p.effect i) j

theorem portRun_cons (p : PortOp) (ops : List PortOp) (j : Instance) : portRun (p :: ops) j = portRun ops (p.effect j) := rfl

theorem portRun_append (ops1 ops2 : List PortOp) (j : Instance) :
    portRun (ops1 ++ ops2) j = portRun ops2 (portRun ops1 j) := List.foldl_append

/-- Reads log the registers' values in order, and change nothing else. -/
theorem portRun_reads (offs : List Nat) : ∀ j : Instance,
    portRun (offs.map PortOp.read) j = { j with reads := j.reads ++ offs.map (regRead · j.eng) } := by
  induction offs with
  | nil =>
    intro j
    simp only [List.map_nil, List.append_nil]
    rfl
  | cons off offs ih =>
    intro j
    simp only [List.map_cons, portRun_cons, PortOp.effect, ih, List.append_assoc, List.singleton_append]

/-- Settles O53: the two reads see one engine, and log the two halves of its counter. -/
theorem bitCounterReadsConsistent : Obligations.BitCounterReadsConsistent := by
  intro s rest k j hp hk
  have hrun := runSteps_portOps k rest ([0x08, 0x0C].map PortOp.read) s j (by decide) hk hp
  refine ⟨_, _, j.eng.bitcnt.extractLsb' 32 32, j.eng.bitcnt.extractLsb' 0 32, hrun,
    instAt_setInst_same _ _ _ (by simp [hk]), ?reads, ?value, ?engine, setInst_pending ..⟩
  case value => exact BitVec.extractLsb'_append_extractLsb' (w := 32) (len := 32)
  all_goals rw [← portRun, portRun_reads]
  case reads => rfl

/-! Commands through the port. -/

/-- A command as the host issues it: its word written to CMD. -/
def PortOp.command (i : Instr) : PortOp := .write 0x00 (encode i)

theorem portRun_commands (commands : List Instr) : ∀ {j : Instance}, (∀ i ∈ commands, decode (encode i) = .legal i) →
    portRun (commands.map PortOp.command) j = instRun commands j := by
  induction commands with
  | nil => exact fun _ => rfl
  | cons i commands ih =>
    intro j hlegal
    have hword : (PortOp.command i).effect j = instExec i j := wordEffect_legal (hlegal i List.mem_cons_self) j
    rw [List.map_cons, portRun_cons, hword, instRun_cons, ih fun i hi => hlegal i (List.mem_cons_of_mem _ hi)]

/-- The commands of HASH.STR (R79). -/
def hashCommands (bytes : List Byte) : List Instr := .reset :: (ingestPayloads bytes).map Instr.ingest ++ [.finalize]

/-- The offsets of DIGEST0 to DIGEST4 (R34). -/
def digestOffsets : List Nat := (List.finRange 5).map fun i => 0x10 + 4 * i.val

/-- HASH.STR as operations on the instance's port. -/
def hashOps (bytes : List Byte) : List PortOp := (hashCommands bytes).map PortOp.command ++ digestOffsets.map PortOp.read

theorem hashProgram_eq (k : Nat) (bytes : List Byte) : hashProgram k bytes = (hashOps bytes).map (PortOp.access k) := by
  simp only [hashProgram, hashOps, hashCommands, ingestWords, digestOffsets, readDigest, List.map_append, List.map_cons,
    List.map_nil, List.map_map]
  rfl

theorem decode_encode_of_mem_hashCommands {bytes : List Byte} {i : Instr} (h : i ∈ hashCommands bytes) :
    decode (encode i) = .legal i := by
  cases i with
  | reset => decide
  | finalize => decide
  | ingest chunk =>
    have hchunk : chunk ∈ ingestPayloads bytes := by simpa [hashCommands] using h
    exact decode_encode_ingestPayloads hchunk

theorem digestOffsets_aligned : ∀ off ∈ digestOffsets, off < 64 ∧ off % 4 = 0 := by decide

theorem hashOps_aligned (bytes : List Byte) : ∀ p ∈ hashOps bytes, p.off < 64 ∧ p.off % 4 = 0 := by
  intro p hp
  obtain hp | hp := List.mem_append.mp hp
  · obtain ⟨i, -, rfl⟩ := List.mem_map.mp hp
    exact ⟨Nat.zero_lt_succ 63, rfl⟩
  · obtain ⟨off, hoff, rfl⟩ := List.mem_map.mp hp
    exact digestOffsets_aligned off hoff

/-- The five DIGEST registers of a Finalized engine, packed, are the digest it memoized. -/
theorem flatMap_be32_digest {e : Engine} {h : HashState} (hfin : e.phase = .finalized) (hmemo : e.memo = digestBytes h) :
    (digestOffsets.map (regRead · e)).flatMap be32 = e.memo.toList := by
  have hread (i : Fin 5) : regRead (0x10 + 4 * i.val) e = [h.h0, h.h1, h.h2, h.h3, h.h4][i] := by
    rw [regRead_digest, digestReg_finalized hfin, hmemo, memoWord_digestBytes]
  have hwords : digestOffsets.map (regRead · e) = [h.h0, h.h1, h.h2, h.h3, h.h4] := by
    rw [digestOffsets, List.map_map]
    exact List.map_congr_left fun i _ => hread i
  rw [hwords, hmemo]
  rfl

/-- What hashString's program makes of an instance: the digest of the bytes memoized, and its registers logged. -/
theorem portRun_hashOps (bytes : List Byte) (j : Instance) :
    ∃ e : Engine, portRun (hashOps bytes) j =
        { j with eng := e, reads := j.reads ++ digestOffsets.map (regRead · e) } ∧
      e.phase = .finalized ∧ e.memo = messageDigest bytes := by
  obtain ⟨e, hrun, hphase, hmemo⟩ := instRun_hash (ingestPayloads bytes) j
  rw [flatten_ingestPayloads] at hmemo
  refine ⟨e, ?_, hphase, hmemo⟩
  rw [hashOps, portRun_append, portRun_commands _ fun i => decode_encode_of_mem_hashCommands, hashCommands, hrun, portRun_reads]

theorem lastDigestReads_eq {s : State} {k : Nat} {u : Instance} {old new : List Word} (hk : s.instAt k = some u)
    (hreads : u.reads = old ++ new) (hnew : new.length = 5) : lastDigestReads k s = new := by
  simp [lastDigestReads, hk, hreads, hnew]

/-- hashString on the bytes, on any instance of a platform with nothing pending. -/
theorem hashBytes_eq {s : State} {k : Nat} {j : Instance} (hp : s.pending = []) (hk : s.instAt k = some j) (bytes : List Byte) :
    ∃ u : Instance, hashBytes k bytes s = .next (s.setInst k u, toHexChars (messageDigest bytes).toList) ∧
      u.faultLog = j.faultLog ∧ u.eng.phase = .finalized := by
  obtain ⟨e, hrun, hphase, hmemo⟩ := portRun_hashOps bytes j
  have hissue : (s.issue (hashProgram k bytes)).pending = (hashOps bytes).map (PortOp.access k) ++ [] := by
    rw [State.issue, hp, hashProgram_eq, List.nil_append, List.append_nil]
  have hdone : { s.issue (hashProgram k bytes) with pending := [] } = s := by
    rw [State.issue, ← hp]
  have hdrain : drain (s.issue (hashProgram k bytes)) = .next (s.setInst k (portRun (hashOps bytes) j)) := by
    have hsteps := runSteps_portOps k [] (hashOps bytes) (s.issue (hashProgram k bytes)) j (hashOps_aligned bytes)
      (by simpa [State.issue] using hk) hissue
    rw [hdone] at hsteps
    rw [drain, hissue, List.append_nil, List.length_map, hsteps, portRun]
  refine ⟨portRun (hashOps bytes) j, ?_, by rw [hrun], by rw [hrun]; exact hphase⟩
  have hlast : lastDigestReads k (s.setInst k (portRun (hashOps bytes) j)) = digestOffsets.map (regRead · e) :=
    lastDigestReads_eq (instAt_setInst_same _ _ _ (by simp [hk])) (by rw [hrun]) (by simp [digestOffsets])
  rw [hashBytes, hdrain]
  dsimp only
  rw [hlast, flatMap_be32_digest hphase (hmemo.trans rfl), hmemo]

/-- Settles O58: `hashBytes_eq`, which replaces instance k alone. -/
theorem hashStringGivesTheDigest : Obligations.HashStringGivesTheDigest := by
  intro s k j text hp hk
  obtain ⟨u, hhash, hlog, hphase⟩ := hashBytes_eq hp hk (Config.textEncoding text)
  refine ⟨s.setInst k u, u, ?_, (setInst_pending ..).trans hp, instAt_setInst_same _ _ _ (by simp [hk]), hlog, hphase,
    fun n hn => instAt_setInst_other _ _ _ _ hn⟩
  rw [hashString, hhash, toHex]

theorem length_toHexChars_digest (d : Vector Byte 20) : (toHexChars d.toList).length = 40 := by
  rw [length_toHexChars, Vector.length_toList]

/-- Settles O59: verify compares with the digits hashString gives, of which there are 40. -/
theorem verifyComparesDigest : Obligations.VerifyComparesDigest := by
  intro s k j text candidate hp hk
  obtain ⟨u, hhash, -, -⟩ := hashBytes_eq hp hk (Config.textEncoding text)
  refine ⟨s.setInst k u, _, ?run, decide_eq_true_iff, fun hlen => decide_eq_false fun hsame => hlen ?length⟩
  case run => rw [verify, verifyBytes, hhash]; rfl
  case length =>
    have := congrArg List.length hsame
    rwa [List.length_map, length_toHexChars_digest, String.length_toList] at this

end Sys2Proof.Machine
end
